-- ==== Sys2Proof/Word.lean ====
section
/-! DEFINITION. The register and sample types of rule R5 (00_scope.md). -/

namespace Sys2Proof

/-- A register value: a 32-bit vector, the spec's `u32` (R5). -/
abbrev Word := BitVec 32

/-- A sample: an 8-bit vector, the spec's `i8` when read as two's complement (R5, R9). -/
abbrev Byte := BitVec 8

end Sys2Proof
end

