-- ==== Sys2Proof/Config.lean ====
section
/-! DEFINITION. The implementation parameters of rule R4 (00_scope.md) and the model's free values. -/

namespace Sys2Proof

/-- The open parameters of R4. A machine carries its own in `State.params`, and no step changes them, so a
statement about every state is a statement about every configuration. -/
structure Params where
  /-- SYM_CAP: the largest samples-per-cycle the block accepts. -/
  symCap : Nat
  /-- OUT_CAP: the largest output length in samples. -/
  outCap : Nat
  /-- BLOCK_BASE: the host bus address of offset 0x00. -/
  blockBase : Nat
  deriving DecidableEq, Repr

/-- The example configuration of 95_test_vectors.md (`SYM_CAP = 64`, `OUT_CAP = 256`).
DESIGN CHOICE (log entry 1, unsafe): R4 leaves all three OPEN; BLOCK_BASE = 0 is this model's. -/
def Config.exampleParams : Params := ⟨64, 256, 0⟩

/-- The three sample arrays of R42 and R43. -/
inductive SampleArray where
  | symLow
  | symHigh
  | out
  deriving DecidableEq, Repr

/-- `draw()` of R7: the `n`-th value that the block at `base` leaves free (a refused read while BUSY = 1, R174; a
read outside the window, R61). No body: nothing can be proved of its value (log entry 3). One sequence for each
BLOCK_BASE, so nothing relates the values of instances with different windows; that two states with the same
BLOCK_BASE and the same counter draw the same value is a DESIGN CHOICE (log entry 15, unsafe). -/
opaque Config.draw : (base n : Nat) → Word

/-- What an array entry that no command has written holds: unspecified (R42, R43, R220). No body: nothing can be
proved of its value, and no rule lets the host observe it (log entry 4). -/
opaque Config.unspecified : SampleArray → Nat → Byte

end Sys2Proof
end

