-- ==== Sys2Proof/Syntax.lean ====
section
/-! DEFINITION. The syntax: the four commands of the opcode map (R82), the register names of the window (R21),
host accesses (R160), the turns of the two agents and the platform's reset (R8, R220), and the host assembly
of R86 and R87. -/

namespace Sys2Proof

/-- The commands, one constructor per row of spec/opcode_table.json. The command word carries no operand field
(R80): all operands come from the latched ARG0 and ARG1 (R81). -/
inductive Instr where
  /-- CFG_RATE (R106) -/
  | cfgRate
  /-- WAVE (R107) -/
  | wave
  /-- CFG_FSK (R131) -/
  | cfgFsk
  /-- ENCODE_BIT (R132) -/
  | encodeBit
  deriving DecidableEq, Repr

/-- The fifteen registers of the window (R21); the sixteenth word, 0x3C, is reserved and has no name. -/
inductive Reg where
  | cmd | arg0 | arg1 | status
  | sampleRate | freqLow | freqHigh | lenLow | lenHigh | symSize
  | outLen | rdPtr | outData | symCap | outCap
  deriving DecidableEq, Repr

/-- The direction of a host access (R160). -/
inductive Dir where
  | read
  | write
  deriving DecidableEq, Repr

/-- A host access `(dir, a, n, v)` (R160): `addr` a host bus address, `n` the width in bytes, `v` the data of a
write (of a read, and of a width other than 4, no rule looks at it). -/
structure Access where
  dir  : Dir
  addr : Nat
  n    : Nat
  v    : Word
  deriving DecidableEq, Repr

/-- What the host does next: one access, or the `poll` loop of R86, which reads STATUS until BUSY reads 0. -/
inductive HostOp where
  | access (a : Access)
  | poll
  deriving DecidableEq, Repr

/-- Who takes the next step (R8, R220). -/
inductive Turn where
  /-- the host: the next operation of its program -/
  | host
  /-- the block sequencer: the completion step (R191) -/
  | block
  /-- the platform asserts the block's reset (R220) -/
  | reset
  /-- an access by a SECOND bus master: the shared configuration that R203 has a model refuse -/
  | foreign (a : Access)
  deriving DecidableEq, Repr

/-- The forms a value takes in host assembly (R86). -/
inductive Value where
  /-- a decimal integer -/
  | dec (z : Int)
  /-- a hexadecimal integer `0x…` -/
  | hex (n : Nat)
  /-- a command mnemonic, in `wr CMD, …` only -/
  | mnemonic (i : Instr)
  deriving DecidableEq, Repr

/-- A line of host assembly (R86). The name in `rd REG -> name` names the value observed for the reader; it
is notation only (D34). -/
inductive Line where
  | wr (r : Reg) (v : Value)
  | rd (r : Reg) (name : Option String)
  | poll
  deriving DecidableEq, Repr

/-- The pseudo-instructions of R87. -/
inductive Pseudo where
  | cfgRate (r : Value)
  | wave (f c : Value)
  | cfgFsk (fl fh : Value)
  | encodeBit (b c : Value)
  | check
  | seek (k : Value)
  | drain (n : Nat)
  | clrAerr
  deriving DecidableEq, Repr

end Sys2Proof
end

