-- ==== Sys2Proof/WellFormed.lean ====
section
/-! DEFINITION. Which terms are well formed: the constraints on the parameters (R4) and the forms of host
assembly (R86). A command has no operand field (R80), so every term of Instr is well formed. -/

namespace Sys2Proof

/-- The constraints of R4: `4 ≤ SYM_CAP ≤ OUT_CAP ≤ 2^31 − 1`, and BLOCK_BASE a multiple of 0x40. -/
def Params.legal (p : Params) : Bool :=
  decide (4 ≤ p.symCap) && decide (p.symCap ≤ p.outCap) && decide (p.outCap ≤ 2 ^ 31 - 1)
    && decide (p.blockBase % 0x40 = 0)

/-- No check: the command word has no register number, immediate or mode field (R80). -/
def Instr.wf : Instr → Bool
  | .cfgRate => true
  | .wave => true
  | .cfgFsk => true
  | .encodeBit => true

/-- The forms of `v` in `wr REG, v` (R86): a decimal in −2^31 … 2^32 − 1, a hexadecimal of at most 8 digits, or,
for CMD only, a mnemonic. -/
def Value.wf (r : Reg) : Value → Bool
  | .dec z => decide (-(2 ^ 31) ≤ z) && decide (z ≤ 2 ^ 32 - 1)
  | .hex n => decide (n < 16 ^ 8)
  | .mnemonic _ => decide (r = .cmd)

/-- A line is well formed when the value it writes is (R86). -/
def Line.wf : Line → Bool
  | .wr r v => v.wf r
  | .rd _ _ => true
  | .poll => true

end Sys2Proof
end

