-- ==== Sys2Proof/Decode.lean ====
section
/-! DEFINITION. The decoder of command words (R80, R82, R83, R191), total and rejecting by name, and the encoder
after it (R82). Bytes are laid out as R62 assumes of a byte-addressed platform: bits [8k+7:8k] of a word at
address + k (D27; the block itself cannot observe byte order). -/

namespace Sys2Proof

/-- Why a byte sequence is no command. -/
inductive DecodeError where
  /-- fewer than the four bytes of a command word -/
  | truncated
  /-- RSVD ≠ 0 (R83) -/
  | reservedBits
  /-- OPCODE 0x00 or 0x05 … 0xFF (R83) -/
  | reservedOpcode
  deriving DecidableEq, Repr

/-- What a decoder answers: a command, or why there is none. -/
inductive Decoded (α : Type) where
  | ok (a : α)
  | rejected (e : DecodeError)
  deriving DecidableEq, Repr

/-- OPCODE: bits [7:0] of the command word (R80). -/
def opcodeField (w : Word) : BitVec 8 := w.extractLsb' 0 8

/-- RSVD: bits [31:8] of the command word (R80). -/
def rsvdField (w : Word) : BitVec 24 := w.extractLsb' 8 24

/-- The opcode map of R82, and the reserved opcodes of R83. -/
def decodeOpcode (op : BitVec 8) : Decoded Instr :=
  if op = 0x01#8 then .ok .cfgRate
  else if op = 0x02#8 then .ok .wave
  else if op = 0x03#8 then .ok .cfgFsk
  else if op = 0x04#8 then .ok .encodeBit
  else .rejected .reservedOpcode

/-- The decoding part of the completion step (R191): RSVD first, then OPCODE. -/
def decodeWord (w : Word) : Decoded Instr :=
  if rsvdField w ≠ 0 then .rejected .reservedBits else decodeOpcode (opcodeField w)

/-- The four bytes of a word, lowest address first (R62). -/
def bytesOfWord (w : Word) : List Byte :=
  [w.extractLsb' 0 8, w.extractLsb' 8 8, w.extractLsb' 16 8, w.extractLsb' 24 8]

/-- The word that four bytes hold, lowest address first (R62), and the bytes after it. -/
def wordOfBytes : List Byte → Option (Word × List Byte)
  | b0 :: b1 :: b2 :: b3 :: rest => some (b3 ++ b2 ++ b1 ++ b0, rest)
  | _ => none

/-- Decoding from bytes, total on any list: the command, and the bytes after its word. -/
def decodeBytes (bs : List Byte) : Decoded (Instr × List Byte) :=
  match wordOfBytes bs with
  | none => .rejected .truncated
  | some (w, rest) =>
    match decodeWord w with
    | .ok i => .ok (i, rest)
    | .rejected e => .rejected e

/-- The word of a command: its OPCODE with RSVD = 0 (R82). -/
def encode : Instr → Word
  | .cfgRate => 0x00000001#32
  | .wave => 0x00000002#32
  | .cfgFsk => 0x00000003#32
  | .encodeBit => 0x00000004#32

/-- The word the table's `w` stands for: the low `nbits` bits of `w`, every bit above them 0. -/
def tableWord (nbits w : Nat) : Word := BitVec.ofNat 32 (w % 2 ^ nbits)

/-- The command this decoder reads from a row of spec/opcode_table.json whose bits are `w`. -/
def decodeTableWord (nbits w : Nat) : Option Instr :=
  match decodeBytes (bytesOfWord (tableWord nbits w)) with
  | .ok (i, _) => some i
  | .rejected _ => none

end Sys2Proof
end

