-- ==== Sys2Proof/Machine/State.lean ====
section
/-! DEFINITION. The state of the machine: the complete architectural state of rule R20 (10_state.md), the
parameters of R4, and the environment that moves the block (the host's remaining program, the interleaving,
what the host has read, the counter of free values). -/

namespace Sys2Proof.Machine

/-- A sample array as data: (index, sample) pairs, indices strictly rising; an index that is not listed has been
written by no command, and what it holds is unspecified (R42, R43, R220). -/
abbrev Memory := List Host.Cell

/-- The canonical form: indices strictly rising. An unlisted index reads as no value, so no listed entry can
equal what an unlisted one reads as. -/
abbrev Memory.wf (m : Memory) : Prop := m.Pairwise (fun x y => x.1 < y.1)

/-- The latched command `(c, a0, a1)` (R44). -/
structure Inflight where
  c  : Word
  a0 : Word
  a1 : Word
  deriving DecidableEq, Repr

/-- Why the machine stops. The spec has no trap and no hang (R198); this is the one stuck state of the model. -/
inductive Fault where
  /-- Raised by a command's meaning when no command is in flight: the completion step is enabled exactly when
  INFLIGHT ≠ none (R191). `step` never raises it: it looks at INFLIGHT first. Safe. -/
  | notEnabled
  deriving DecidableEq, Repr

/-- Why the model has no meaning for what it is asked to do. -/
inductive Refusal where
  /-- Raised by `exec` for a command that has no meaning yet; none is left. Safe. -/
  | notModelled (mnemonic : String)
  /-- Raised by `step` at the turn of a second bus master: one instance serves exactly one host, and a model
  refuses a shared configuration (R203). Safe. -/
  | sharedInstance
  deriving DecidableEq, Repr

structure State where
  /-- CMD_LAST (R22) -/
  cmdLast    : Word
  /-- ARG0 (R23) -/
  arg0       : Word
  /-- ARG1 (R24) -/
  arg1       : Word
  /-- STATUS.BUSY (R26) -/
  busy       : Bool
  /-- STATUS.AERR (R27) -/
  aerr       : Bool
  /-- STATUS.RATE_VALID (R28) -/
  rateValid  : Bool
  /-- STATUS.SYM_VALID (R29) -/
  symValid   : Bool
  /-- STATUS.ECODE (R30) -/
  ecode      : BitVec 4
  /-- SAMPLE_RATE (R31) -/
  sampleRate : Word
  /-- FREQ_LOW (R32) -/
  freqLow    : Word
  /-- FREQ_HIGH (R33) -/
  freqHigh   : Word
  /-- LEN_LOW (R34) -/
  lenLow     : Word
  /-- LEN_HIGH (R35) -/
  lenHigh    : Word
  /-- OUT_LEN (R37) -/
  outLen     : Word
  /-- RD_PTR (R38) -/
  rdPtr      : Word
  /-- SYM_LOW (R42) -/
  symLow     : Memory
  /-- SYM_HIGH (R42) -/
  symHigh    : Memory
  /-- OUT (R43) -/
  out        : Memory
  /-- INFLIGHT (R44) -/
  inflight   : Option Inflight
  /-- SYM_CAP, OUT_CAP and BLOCK_BASE (R4, R40, R41): constants of the machine -/
  params     : Params
  /-- the host's remaining program, in program order (R8, R68): the model's own field -/
  host       : List HostOp
  /-- the interleaving still to come (R8, R68): the model's own field -/
  turns      : List Turn
  /-- the values the host's reads have returned, newest first (R160): the model's own field -/
  reads      : List Word
  /-- how many free values have been drawn (R7): the model's own field -/
  draws      : Nat
  deriving DecidableEq, Repr

/-- The block right after reset (R21, R220), with the parameters `p`, an idle host and no interleaving fixed.
The arrays list nothing: their contents are unspecified (R220). -/
def State.initial (p : Params) : State where
  cmdLast    := 0
  arg0       := 0
  arg1       := 0
  busy       := false
  aerr       := false
  rateValid  := false
  symValid   := false
  ecode      := 0
  sampleRate := 0
  freqLow    := 0
  freqHigh   := 0
  lenLow     := 0
  lenHigh    := 0
  outLen     := 0
  rdPtr      := 0
  symLow     := []
  symHigh    := []
  out        := []
  inflight   := none
  params     := p
  host       := []
  turns      := []
  reads      := []
  draws      := 0

/-- The machine right after reset (R220), in the example configuration (log entry 1). -/
def State.reset : State := State.initial Config.exampleParams

end Sys2Proof.Machine
end

