-- ==== Sys2Proof/Machine/Flags.lean ====
section
/-! DEFINITION. STATUS and its fields: the result codes (R192), the STATUS word (R25, R165), and the one computed
register, SYM_SIZE (R36, R135). The block has no other flag (R46). -/

namespace Sys2Proof.Machine

/-- The result codes of R192, by name. -/
inductive Code where
  | ok | illegalCmd | argRate | argFreq | argNyquist | argFskEqual | argBit | argCount
  | seqRate | seqFsk | capSym | capOut
  deriving DecidableEq, Repr

/-- The value of ECODE for each code (R192). -/
def Code.bits : Code → BitVec 4
  | .ok => 0x0#4
  | .illegalCmd => 0x1#4
  | .argRate => 0x2#4
  | .argFreq => 0x3#4
  | .argNyquist => 0x4#4
  | .argFskEqual => 0x5#4
  | .argBit => 0x6#4
  | .argCount => 0x7#4
  | .seqRate => 0x8#4
  | .seqFsk => 0x9#4
  | .capSym => 0xA#4
  | .capOut => 0xB#4

/-- The STATUS word: ECODE in [7:4], SYM_VALID 3, RATE_VALID 2, AERR 1, BUSY 0, and bits [31:8] = 0 (R165). -/
def statusWord (s : State) : Word :=
  (s.ecode ++ BitVec.ofBool s.symValid ++ BitVec.ofBool s.rateValid ++ BitVec.ofBool s.aerr
    ++ BitVec.ofBool s.busy).setWidth 32

/-- BUSY as a STATUS word shows it: bit 0 (R25). -/
def busyBit (status : Word) : Bool := status.getLsbD 0

/-- `s[7:4]` of `check` (R87): the result code as a STATUS word shows it. -/
def resultCode (status : Word) : BitVec 4 := status.extractLsb' 4 4

/-- SYM_SIZE: `max(LEN_LOW, LEN_HIGH)` while SYM_VALID = 1, else 0 (R36, R135). -/
def symSize (s : State) : Word :=
  if s.symValid then (if s.lenLow.toNat ≤ s.lenHigh.toNat then s.lenHigh else s.lenLow) else 0

end Sys2Proof.Machine
end

