-- ==== Sys2Proof/Machine/Operands.lean ====
section
/-! DEFINITION. How a command reads its operands and how a sample is widened (R6, R81, R104, R109). -/

namespace Sys2Proof.Machine

/-- `s32(v)`: a 32-bit vector read as two's complement (R6). Every operand is read so (R81). -/
def s32 (v : Word) : Int := (v.toNat : Int) - 2 ^ 32 * (if v.getLsbD 31 then 1 else 0)

/-- `u32(v)`: a 32-bit vector read as unsigned (R6). -/
def u32 (v : Word) : Nat := v.toNat

/-- `sext_32(b)`: a sample sign-extended to 32 bits (R6, R171). -/
def sext32 (b : Byte) : Word := b.signExtend 32

/-- A positive operand as the number it is; the commands reach this only after the checks of R195. -/
def magnitude (v : Word) : Nat := (s32 v).toNat

/-- Samples per cycle `N = SAMPLE_RATE div f` (R104). -/
def samplesPerCycle (rate f : Word) : Nat := u32 rate / magnitude f

/-- The Nyquist-margin check fails: `SAMPLE_RATE < 4 × f` as mathematical integers (R109). -/
def belowNyquist (rate f : Word) : Bool := decide ((u32 rate : Int) < 4 * s32 f)

/-- "Non-positive": `s32(v) ≤ 0` (R81). -/
def nonPositive (v : Word) : Bool := decide (s32 v ≤ 0)

end Sys2Proof.Machine
end

