-- ==== Sys2Proof/Machine/Ops.lean ====
section
/-! DEFINITION. The operations every meaning is built from: reading and filling a sample array, issuing a command
(R161), ending one with an error or with success (R193, R194), refusing a host access (R197), drawing a free
value (R7), and reset (R220). -/

namespace Sys2Proof.Machine

/-- The entry at an index: none where no command has written it. -/
def Memory.read : Memory → Nat → Option Byte
  | [], _ => none
  | (j, b) :: m, i => if j = i then some b else Memory.read m i

/-- The entries `start, start + 1, …`, `n` of them, each holding `f` of its index. -/
def Memory.run (f : Nat → Byte) : Nat → Nat → Memory
  | _, 0 => []
  | start, n + 1 => (start, f start) :: Memory.run f (start + 1) n

/-- `for k in 0 … n−1: A[k] <- f k`: entries at or beyond `n` keep what they held. -/
def Memory.fill (m : Memory) (n : Nat) (f : Nat → Byte) : Memory :=
  Memory.run f 0 n ++ m.filter (fun c => decide (n ≤ c.1))

/-- What an entry holds: the listed sample, or the unspecified contents of an unwritten one (R42, R43). -/
def sampleAt (a : SampleArray) (m : Memory) (i : Nat) : Byte :=
  match Memory.read m i with
  | some b => b
  | none => Config.unspecified a i

/-- Issue of the command word `v` (R161, R44): latch it with ARG0 and ARG1. -/
def issue (v : Word) (s : State) : State :=
  { s with inflight := some ⟨v, s.arg0, s.arg1⟩, cmdLast := v, busy := true, ecode := Code.ok.bits }

/-- `raise CmdError(code)`: exactly these effects (R193). -/
def cmdError (code : Code) (s : State) : State :=
  { s with ecode := code.bits, inflight := none, busy := false }

/-- `finish_ok()` (R194). -/
def finishOk (s : State) : State :=
  { s with ecode := Code.ok.bits, inflight := none, busy := false }

/-- The end of a completion step: the first failing check decides (R195); with none, the effects and then
`finish_ok()`. -/
def finish (code : Code) (effect : State) (s : State) : State :=
  if code = .ok then finishOk effect else cmdError code s

/-- A completion step of the command in flight (R191): it reads its operands from INFLIGHT only (R44). -/
def complete (s : State) (f : Inflight → State) : Host.Outcome State Fault Refusal :=
  match s.inflight with
  | some q => .next (f q)
  | none => .fault .notEnabled

/-- A configuring command empties the output (R37, R38). -/
def emptyOutput (s : State) : State := { s with outLen := 0, rdPtr := 0 }

/-- A producing command replaces the output whole: every earlier sample is discarded, and the new ones start at
index 0 (R43, R37, R38). -/
def produce (len : Nat) (f : Nat → Byte) (s : State) : State :=
  { s with out := Memory.fill [] len f, outLen := BitVec.ofNat 32 len, rdPtr := 0 }

/-- `raise AccessError()` (R197): AERR is set, and nothing else changes. -/
def accessError (s : State) : State := { s with aerr := true }

/-- `draw()` (R7): the next free value; each use takes a fresh one (log entry 3), from the sequence of this
instance's BLOCK_BASE (R203; DESIGN CHOICE, log entry 15). -/
def drawWord (s : State) : Word × State :=
  (Config.draw s.params.blockBase s.draws, { s with draws := s.draws + 1 })

/-- The host observes the value its read returned. -/
def observe (v : Word) (s : State) : State := { s with reads := v :: s.reads }

/-- The platform asserts the block's reset (R220). The parameters are constants, and the host and the
interleaving are not the block's. -/
def platformReset (s : State) : State :=
  { State.initial s.params with host := s.host, turns := s.turns, reads := s.reads, draws := s.draws }

end Sys2Proof.Machine
end

