-- ==== Sys2Proof/Machine/Sample.lean ====
section
/-! DEFINITION. The sample function `S(i, N) = trunc(127 × sin(2πi/N))` over exact reals (R100), as integer
arithmetic that the kernel evaluates.

A phase in the first quarter turn is a fraction `x/N` of a half turn, and `trunc` of `127 sin(πx/N)` is the number
of levels k in 1 … 127 that `127 sin(πx/N)` reaches. Level k is reached from the angle with `sin = k/127` on. The
row of level k in `thresholds` is the LEAST fraction of a half turn, among all fractions with a denominator
below 2^32, at which the sine reaches k/127; so for every N below 2^32, and no register holds a larger one, level k
is reached at x/N exactly when x/N is not below that fraction. (R105: how S is computed is not visible, only its
values are. That these are the exact values is a statement of Certificates/Slice0/Obligations.lean; log entry 5.) -/

namespace Sys2Proof.Machine

/-- Levels 1 … 16: numerator and denominator of each threshold. -/
def thresholds1 : List (Nat × Nat) :=
  [(8885293, 3545037711), (3491086, 696411915), (23927834, 3181964487), (40597649, 4048765812),
   (45734219, 3648485290), (47217023, 3138623735), (60741060, 3460332061), (45257531, 2255624647),
   (67455309, 2987879261), (106988153, 4264218875), (112979855, 4092770643), (74236810, 2464582111),
   (45901693, 1406298748), (105043414, 2987520181), (141881773, 3765078192), (130694450, 3250387621)]

/-- Levels 17 … 32: numerator and denominator of each threshold. -/
def thresholds2 : List (Nat × Nat) :=
  [(65835659, 1540495034), (9465131, 209094624), (155340283, 3249754519), (147110713, 2922511715),
   (188370472, 3562442763), (64384189, 1161752951), (159670301, 2754525653), (233913363, 3865253023),
   (73107497, 1159124140), (223608520, 3407117933), (244691958, 3588247315), (2060512, 29119767),
   (156600721, 2135506397), (282890543, 3726718129), (100283387, 1277646639), (304069277, 3750333157)]

/-- Levels 33 … 48: numerator and denominator of each threshold. -/
def thresholds3 : List (Nat × Nat) :=
  [(351631147, 4202562344), (303341018, 3516219897), (143106371, 1610227433), (147856764, 1616206457),
   (9750459, 103617370), (270573263, 2797375248), (56905273, 572751952), (249831045, 2449532491),
   (448193825, 4283370896), (277797038, 2589270933), (365076124, 3320459187), (434311195, 3856593451),
   (64488929, 559356512), (53235275, 451238652), (480692582, 3983553345), (354000631, 2869379782)]

/-- Levels 49 … 64: numerator and denominator of each threshold. -/
def thresholds4 : List (Nat × Nat) :=
  [(139412051, 1105709813), (348156191, 2702962915), (556057805, 4227386294), (480263137, 3576607161),
   (130652415, 953447581), (532993483, 3812675517), (441285771, 3095221373), (250606771, 1724082777),
   (336047546, 2268213405), (333963512, 2212174367), (639321026, 4157104305), (191939065, 1225453218),
   (516133877, 3236402844), (663115111, 4084671890), (368540057, 2230581739), (686997925, 4086460682)]

/-- Levels 65 … 80: numerator and denominator of each threshold. -/
def thresholds5 : List (Nat × Nat) :=
  [(468164150, 2737398589), (683657479, 3930179405), (685783680, 3876835249), (352755040, 1961367383),
   (136661555, 747486746), (669769829, 3604349538), (682515671, 3614330481), (304967891, 1589461607),
   (726032573, 3724745768), (458080537, 2313599000), (626081569, 3113445496), (143608543, 703251122),
   (606595840, 2925516033), (773633935, 3675039206), (73104166, 342089685), (233755979, 1077649278)]

/-- Levels 81 … 96: numerator and denominator of each threshold. -/
def thresholds6 : List (Nat × Nat) :=
  [(801638937, 3641274157), (326738981, 1462432840), (97246473, 428930914), (678083366, 2947614997),
   (383100469, 1641374810), (606453311, 2561124330), (310975647, 1294572038), (749131834, 3074330205),
   (719303968, 2910184281), (986022760, 3933068949), (483550163, 1901695387), (868527685, 3367855419),
   (419497810, 1603919797), (779747086, 2939678893), (524841373, 1951077267), (934799429, 3426645435)]

/-- Levels 97 … 112: numerator and denominator of each threshold. -/
def thresholds7 : List (Nat × Nat) :=
  [(1184452584, 4281279841), (774732889, 2761281519), (933035346, 3279091885), (264908439, 917990948),
   (712884841, 2435765384), (330463544, 1113256419), (487539702, 1619253163), (228115961, 746906332),
   (945427418, 3051487221), (1168704559, 3718110361), (1132139708, 3549821311), (481590517, 1488061331),
   (1398915469, 4259025061), (601619401, 1804457224), (500936096, 1479901803), (1116674762, 3248709411)]

/-- Levels 113 … 127: numerator and denominator of each threshold. -/
def thresholds8 : List (Nat × Nat) :=
  [(1203868073, 3448184496), (205839420, 580289929), (732457448, 2031709969), (1163342043, 3173831900),
   (1398649901, 3751354051), (1628929870, 4292921239), (1618249823, 4187837084), (1571042854, 3989203323),
   (626393897, 1559102967), (1736284280, 4230872789), (609937629, 1452582937), (1778906023, 4130495565),
   (1014615427, 2288082903), (553035025, 1202175139), (1, 2)]

/-- The thresholds of the levels 1 … 127, rising. -/
def thresholds : List (Nat × Nat) :=
  thresholds1 ++ thresholds2 ++ thresholds3 ++ thresholds4 ++ thresholds5 ++ thresholds6 ++ thresholds7 ++ thresholds8

/-- How many thresholds, from the first on, the fraction `x/n` is not below. -/
def levelsReached : List (Nat × Nat) → Nat → Nat → Nat
  | [], _, _ => 0
  | (p, q) :: ts, x, n => if p * n ≤ x * q then levelsReached ts x n + 1 else 0

/-- `trunc(127 sin(πx/n))` for `0 ≤ x/n ≤ 1/2`. -/
def level (x n : Nat) : Nat := levelsReached thresholds x n

/-- `2i mod N`: where the angle `2πi/N` stands in its half turn, as a fraction of N, for `0 ≤ i < N`. -/
def halfTurn (i N : Nat) : Nat := if 2 * i < N then 2 * i else 2 * i - N

/-- The same angle brought into the first quarter turn: `sin(π − θ) = sin θ`. -/
def quarterTurn (i N : Nat) : Nat :=
  if 2 * halfTurn i N ≤ N then halfTurn i N else N - halfTurn i N

/-- `S(i, N)` (R100): positive in the first half turn, negative in the second. -/
def S (i N : Nat) : Int :=
  if 2 * i < N then (level (quarterTurn i N) N : Int) else -(level (quarterTurn i N) N : Int)

/-- `S(i, N)` as it is stored: an 8-bit two's-complement sample (R100, R101). -/
def sample (i N : Nat) : Byte := BitVec.ofInt 8 (S i N)

end Sys2Proof.Machine
end

