-- ==== Sys2Proof/Machine/WaveCycle.lean ====
section
/-! DEFINITION. The wave-cycle family: CFG_RATE (R106) and WAVE (R107). Each meaning is the checks, in the order of
R195, and the effects of success. -/

namespace Sys2Proof.Machine

/-- The check of CFG_RATE (R106, R195). -/
def cfgRateCode (q : Inflight) : Code := if nonPositive q.a0 then .argRate else .ok

/-- The effects of a successful CFG_RATE (R106): the rate, an invalid cache, an empty output. -/
def cfgRateEffect (q : Inflight) (s : State) : State :=
  emptyOutput
    { s with sampleRate := q.a0, rateValid := true, symValid := false,
             freqLow := 0, freqHigh := 0, lenLow := 0, lenHigh := 0 }

/-- CFG_RATE (R106). -/
def execCfgRate (s : State) : Host.Outcome State Fault Refusal :=
  complete s fun q => finish (cfgRateCode q) (cfgRateEffect q s) s

/-- The checks of WAVE, first failing check first (R107, R195). -/
def waveCode (q : Inflight) (s : State) : Code :=
  if s.rateValid = false then .seqRate
  else if nonPositive q.a0 then .argFreq
  else if belowNyquist s.sampleRate q.a0 then .argNyquist
  else if nonPositive q.a1 then .argCount
  else if s.params.symCap < samplesPerCycle s.sampleRate q.a0 then .capSym
  else if s.params.outCap < samplesPerCycle s.sampleRate q.a0 * magnitude q.a1 then .capOut
  else .ok

/-- The effects of a successful WAVE (R107, R108): `c` whole cycles of N samples. -/
def waveEffect (q : Inflight) (s : State) : State :=
  let N := samplesPerCycle s.sampleRate q.a0
  produce (N * magnitude q.a1) (fun k => sample (k % N) N) s

/-- WAVE (R107). -/
def execWave (s : State) : Host.Outcome State Fault Refusal :=
  complete s fun q => finish (waveCode q s) (waveEffect q s) s

end Sys2Proof.Machine
end

