-- ==== Sys2Proof/Machine/SymbolCache.lean ====
section
/-! DEFINITION. The FSK family: CFG_FSK (R131) and ENCODE_BIT (R132), over the symbol cache of R130. -/

namespace Sys2Proof.Machine

/-- The checks of CFG_FSK, first failing check first (R131, R195). -/
def cfgFskCode (q : Inflight) (s : State) : Code :=
  if s.rateValid = false then .seqRate
  else if nonPositive q.a0 || nonPositive q.a1 then .argFreq
  else if q.a0 = q.a1 then .argFskEqual
  else if belowNyquist s.sampleRate q.a0 || belowNyquist s.sampleRate q.a1 then .argNyquist
  else if decide (s.params.symCap < samplesPerCycle s.sampleRate q.a0)
      || decide (s.params.symCap < samplesPerCycle s.sampleRate q.a1) then .capSym
  else .ok

/-- The effects of a successful CFG_FSK (R131): both symbols, one cycle each, and an empty output. -/
def cfgFskEffect (q : Inflight) (s : State) : State :=
  let Nl := samplesPerCycle s.sampleRate q.a0
  let Nh := samplesPerCycle s.sampleRate q.a1
  emptyOutput
    { s with symLow := s.symLow.fill Nl (fun i => sample i Nl),
             symHigh := s.symHigh.fill Nh (fun i => sample i Nh),
             freqLow := q.a0, freqHigh := q.a1,
             lenLow := BitVec.ofNat 32 Nl, lenHigh := BitVec.ofNat 32 Nh,
             symValid := true }

/-- CFG_FSK (R131). -/
def execCfgFsk (s : State) : Host.Outcome State Fault Refusal :=
  complete s fun q => finish (cfgFskCode q s) (cfgFskEffect q s) s

/-- The symbol of a bit value (R133): 0 selects the low symbol, 1 the high one. -/
def symbolLen (b : Word) (s : State) : Nat := if b = 0 then u32 s.lenLow else u32 s.lenHigh

/-- The entry `i` of the symbol of a bit value (R133). -/
def symbolAt (b : Word) (s : State) (i : Nat) : Byte :=
  if b = 0 then sampleAt .symLow s.symLow i else sampleAt .symHigh s.symHigh i

/-- The checks of ENCODE_BIT, first failing check first (R132, R195). -/
def encodeBitCode (q : Inflight) (s : State) : Code :=
  if s.symValid = false then .seqFsk
  else if decide (s32 q.a0 ≠ 0) && decide (s32 q.a0 ≠ 1) then .argBit
  else if nonPositive q.a1 then .argCount
  else if s.params.outCap < symbolLen q.a0 s * magnitude q.a1 then .capOut
  else .ok

/-- The effects of a successful ENCODE_BIT (R132, R134): the symbol, replicated. -/
def encodeBitEffect (q : Inflight) (s : State) : State :=
  let L := symbolLen q.a0 s
  produce (L * magnitude q.a1) (fun k => symbolAt q.a0 s (k % L)) s

/-- ENCODE_BIT (R132). -/
def execEncodeBit (s : State) : Host.Outcome State Fault Refusal :=
  complete s fun q => finish (encodeBitCode q s) (encodeBitEffect q s) s

end Sys2Proof.Machine
end

