-- ==== Sys2Proof/Machine/Dispatch.lean ====
section
/-! DEFINITION. The one match from a command to its meaning (R191). -/

namespace Sys2Proof.Machine

def exec (i : Instr) (s : State) : Host.Outcome State Fault Refusal :=
  match i with
  | .cfgRate => Sys2Proof.Machine.execCfgRate s
  | .wave => Sys2Proof.Machine.execWave s
  | .cfgFsk => Sys2Proof.Machine.execCfgFsk s
  | .encodeBit => Sys2Proof.Machine.execEncodeBit s

end Sys2Proof.Machine
end

