-- ==== Sys2Proof/Machine/RegisterAccess.lean ====
section
/-! DEFINITION. Host reads and writes of the register window: the access procedure (R160) and the rule of every
register and direction (R161 … R175). -/

namespace Sys2Proof

/-- The byte offset of a register from BLOCK_BASE (R21). -/
def Reg.off : Reg → Nat
  | .cmd => 0x00
  | .arg0 => 0x04
  | .arg1 => 0x08
  | .status => 0x0C
  | .sampleRate => 0x10
  | .freqLow => 0x14
  | .freqHigh => 0x18
  | .lenLow => 0x1C
  | .lenHigh => 0x20
  | .symSize => 0x24
  | .outLen => 0x28
  | .rdPtr => 0x2C
  | .outData => 0x30
  | .symCap => 0x34
  | .outCap => 0x38

/-- The register at an offset (R21); none at the reserved 0x3C. -/
def Reg.at? (off : Nat) : Option Reg :=
  [Reg.cmd, .arg0, .arg1, .status, .sampleRate, .freqLow, .freqHigh, .lenLow, .lenHigh, .symSize,
    .outLen, .rdPtr, .outData, .symCap, .outCap].find? (fun r => r.off == off)

namespace Machine

/-- Read OUT_DATA (R171): the sample at the cursor, sign-extended, and the cursor moves on; at the end, an
underflow. -/
def readOutData (s : State) : Word × State :=
  if u32 s.rdPtr < u32 s.outLen then
    (sext32 (sampleAt .out s.out (u32 s.rdPtr)), { s with rdPtr := s.rdPtr + 1 })
  else (0, accessError s)

/-- The read rule of each register while BUSY = 0 (R162, R164, R165, R167, R169, R171). -/
def readReg (s : State) : Reg → Word × State
  | .cmd => (s.cmdLast, s)
  | .arg0 => (s.arg0, s)
  | .arg1 => (s.arg1, s)
  | .status => (statusWord s, s)
  | .sampleRate => (s.sampleRate, s)
  | .freqLow => (s.freqLow, s)
  | .freqHigh => (s.freqHigh, s)
  | .lenLow => (s.lenLow, s)
  | .lenHigh => (s.lenHigh, s)
  | .symSize => (symSize s, s)
  | .outLen => (s.outLen, s)
  | .rdPtr => (s.rdPtr, s)
  | .outData => readOutData s
  | .symCap => (BitVec.ofNat 32 s.params.symCap, s)
  | .outCap => (BitVec.ofNat 32 s.params.outCap, s)

/-- Write STATUS (R166): write 1 to bit 1 to clear AERR; every other bit is ignored. -/
def writeStatus (v : Word) (s : State) : State := if v.getLsbD 1 then { s with aerr := false } else s

/-- Write RD_PTR (R170): accepted up to OUT_LEN. -/
def writeRdPtr (v : Word) (s : State) : State :=
  if u32 v ≤ u32 s.outLen then { s with rdPtr := v } else accessError s

/-- The write rule of each register while BUSY = 0 (R161, R163, R166, R168, R170, R172). -/
def writeReg (v : Word) (s : State) : Reg → State
  | .cmd => issue v s
  | .arg0 => { s with arg0 := v }
  | .arg1 => { s with arg1 := v }
  | .status => writeStatus v s
  | .sampleRate => accessError s
  | .freqLow => accessError s
  | .freqHigh => accessError s
  | .lenLow => accessError s
  | .lenHigh => accessError s
  | .symSize => accessError s
  | .outLen => accessError s
  | .rdPtr => writeRdPtr v s
  | .outData => accessError s
  | .symCap => accessError s
  | .outCap => accessError s

/-- Width and alignment of an accepted access (R63, R175). -/
def badShape (off n : Nat) : Bool := decide (n ≠ 4) || decide (off % 4 ≠ 0)

/-- A read at an offset of the window, in the order of R160: shape (R175), busy (R174), then the register's rule,
or the reserved word's (R173). -/
def readWindow (off n : Nat) (s : State) : Word × State :=
  if badShape off n then (0, accessError s)
  else if s.busy && decide (off ≠ Reg.status.off) then
    ((drawWord s).1, accessError (drawWord s).2)
  else
    match Reg.at? off with
    | some r => readReg s r
    | none => (0, accessError s)

/-- A write at an offset of the window, in the order of R160: shape (R175), busy (R174), then the register's
rule, or the reserved word's (R173). -/
def writeWindow (off n : Nat) (v : Word) (s : State) : State :=
  if badShape off n then accessError s
  else if s.busy then accessError s
  else
    match Reg.at? off with
    | some r => writeReg v s r
    | none => accessError s

/-- Whether an address lies in the register window (R60, R61). -/
def inWindow (p : Params) (addr : Nat) : Bool :=
  decide (p.blockBase ≤ addr) && decide (addr ≤ p.blockBase + 0x3F)

/-- One host access, one atomic step (R160). The block does not respond outside its window (R61): its state does
not change, and what a read there returns is the platform's, a free value (log entry 6). -/
def performAccess (a : Access) (s : State) : State :=
  let off := a.addr - s.params.blockBase
  match a.dir with
  | .read =>
    let r := if inWindow s.params a.addr then readWindow off a.n s else drawWord s
    observe r.1 r.2
  | .write => if inWindow s.params a.addr then writeWindow off a.n a.v s else s

end Machine

end Sys2Proof
end

