-- ==== Sys2Proof/Machine/HostAgent.lean ====
section
/-! DEFINITION. The host agent (R8): how one operation of its program is performed, and the host assembly of R86
and R87 that such programs are written in. -/

namespace Sys2Proof

/-- The 32 bits a value assembles to (R86): a negative decimal as its two's complement, a mnemonic as its
command word. -/
def Value.bits : Value → Word
  | .dec z => BitVec.ofInt 32 z
  | .hex n => BitVec.ofNat 32 n
  | .mnemonic i => encode i

/-- The bus transaction of a line, for a block at `base` (R86). -/
def Line.assemble (base : Nat) : Line → HostOp
  | .wr r v => .access ⟨.write, base + r.off, 4, v.bits⟩
  | .rd r _ => .access ⟨.read, base + r.off, 4, 0⟩
  | .poll => .poll

/-- The lines a pseudo-instruction stands for (R87). -/
def Pseudo.expand : Pseudo → List Line
  | .cfgRate r => [.wr .arg0 r, .wr .cmd (.mnemonic .cfgRate), .poll]
  | .wave f c => [.wr .arg0 f, .wr .arg1 c, .wr .cmd (.mnemonic .wave), .poll]
  | .cfgFsk fl fh => [.wr .arg0 fl, .wr .arg1 fh, .wr .cmd (.mnemonic .cfgFsk), .poll]
  | .encodeBit b c => [.wr .arg0 b, .wr .arg1 c, .wr .cmd (.mnemonic .encodeBit), .poll]
  | .check => [.rd .status (some "s")]
  | .seek k => [.wr .rdPtr k]
  | .drain n => List.replicate n (.rd .outData none)
  | .clrAerr => [.wr .status (.hex 0x00000002)]

namespace Machine

/-- A host program for a block at `base`, as the operations its lines stand for (R86, R87). -/
def assemble (base : Nat) (ps : List Pseudo) : List HostOp :=
  (ps.flatMap Pseudo.expand).map (Line.assemble base)

/-- One `R 0x0C` of the poll loop (R86): the host goes on to `rest` once BUSY reads 0, and polls again
otherwise. -/
def pollStatus (rest : List HostOp) (s : State) : State :=
  let r := readWindow Reg.status.off 4 s
  let t := observe r.1 r.2
  if busyBit r.1 then t else { t with host := rest }

/-- The host's step: the next operation of its program, in program order (R8, R68); with none left it is idle. -/
def hostStep (s : State) : State :=
  match s.host with
  | [] => s
  | .access a :: rest => performAccess a { s with host := rest }
  | .poll :: rest => pollStatus rest s

end Machine

end Sys2Proof
end

