-- ==== Sys2Proof/Machine/Sequencer.lean ====
section
/-! DEFINITION. The block sequencer's completion step (R191) and the interleaving of the agents (R8, R68, R228). -/

namespace Sys2Proof.Machine

/-- The completion step (R191), enabled exactly while a command is in flight: decode the latched word and perform
the command, or end it with ILLEGAL_CMD (R83). With nothing in flight the block's turn passes. -/
def completionStep (s : State) : Host.Outcome State Fault Refusal :=
  match s.inflight with
  | none => .next s
  | some q =>
    match decodeWord q.c with
    | .ok i => exec i s
    | .rejected _ => .next (cmdError .illegalCmd s)

/-- Whose turn it is. `turns` fixes the interleaving (R8); when it has run out, a command in flight is completed
first, so that every run is fair (R228), and otherwise the host goes on. -/
def nextTurn (s : State) : Turn :=
  match s.turns with
  | t :: _ => t
  | [] => if s.inflight.isSome then .block else .host

/-- The turn is taken out of the interleaving still to come. -/
def dropTurn (s : State) : State := { s with turns := s.turns.tail }

/-- One step of the agent whose turn it is. -/
def takeTurn (t : Turn) (s : State) : Host.Outcome State Fault Refusal :=
  match t with
  | .host => .next (hostStep s)
  | .block => completionStep s
  | .reset => .next (platformReset s)
  | .foreign _ => .refused .sharedInstance

/-- What places a command word where the next step runs it: it is issued (R161), with the operands that ARG0 and
ARG1 hold, and the next turn is the block's. -/
def placeCommand (v : Word) (s : State) : State :=
  { issue v s with turns := .block :: s.turns }

end Sys2Proof.Machine
end

