-- ==== Sys2Proof/Machine/Step.lean ====
section
/-! DEFINITION. The step of the machine: one turn of one agent (R8, R68). -/

namespace Sys2Proof.Machine

/-- One step: the agent whose turn it is moves. -/
def step (s : State) : Host.Outcome State Fault Refusal := takeTurn (nextTurn s) (dropTurn s)

/-- `s` with a command word issued and the next turn the block's, so that the next step runs it (log entry 7). -/
def State.withFetchWord (s : State) (nbits w : Nat) : State := placeCommand (tableWord nbits w) s

end Sys2Proof.Machine
end

