-- ==== Sys2Proof/Machine/Instances.lean ====
section
/-! DEFINITION. Several instances side by side (R203): each is a machine of its own, with its own BLOCK_BASE and
its own state; a step of one is a step of that one alone. -/

namespace Sys2Proof.Machine

/-- The instance `k` takes a step; where there is none, nothing happens. Each instance draws its own free values:
how those of two instances relate is log entry 15 (DESIGN CHOICE). Each instance also has its own host program: an
access in it at another instance's window reaches no block, and one master that drives several instances is given as
one program for each (R203 is silent on such a master; DESIGN CHOICE, log entry 16, unsafe). -/
def stepInstance (k : Nat) (blocks : List State) : Host.Outcome (List State) Fault Refusal :=
  match blocks[k]? with
  | none => .next blocks
  | some s =>
    match step s with
    | .next t => .next (blocks.set k t)
    | .fault r => .fault r
    | .refused r => .refused r

end Sys2Proof.Machine
end

