-- ==== Sys2Proof/Safety.lean ====
section
/-! DEFINITION. The terms claims are made in: the invariant of rule R45 and the rules it gathers, the output as a
sequence of samples, and the exact reals of R6 and R100. -/

namespace Sys2Proof.Machine

/-- The cache of one symbol at frequency `f` is valid (R32, R34, R42, R45 item 4). -/
structure SymbolOk (rate f len : Word) (cap : Nat) (cache : Memory) : Prop where
  positive : 1 ≤ u32 f
  nyquist  : 4 * u32 f ≤ u32 rate
  length   : u32 len = u32 rate / u32 f
  fits     : u32 len ≤ cap
  contents : ∀ i, i < u32 len → Memory.read cache i = some (sample i (u32 len))

/-- A sample array of `cap` entries (R42, R43): in canonical form, and no entry at or beyond `cap`. -/
structure ArrayOk (cap : Nat) (m : Memory) : Prop where
  canonical : m.wf
  bounded   : ∀ c ∈ m, c.1 < cap

/-- What holds in every state reachable from reset: R45, with what R22, R30, R31, R43, R44 and R101 add. -/
structure Inv (s : State) : Prop where
  /-- R4 -/
  legal      : s.params.legal = true
  /-- R45 item 1 (R26) -/
  busy_iff   : s.busy = s.inflight.isSome
  /-- R44, R174, R198: what is in flight is the command in CMD_LAST with the operands ARG0 and ARG1 still hold -/
  latched    : ∀ q, s.inflight = some q → q = ⟨s.cmdLast, s.arg0, s.arg1⟩
  /-- R161, R165: while a command is in flight ECODE is 0x0 -/
  ecode_busy : s.busy = true → s.ecode = 0
  /-- R45 item 2 -/
  rate_off   : s.rateValid = false → s.sampleRate = 0 ∧ s.symValid = false
  /-- R28, R31 -/
  rate_on    : s.rateValid = true → 1 ≤ u32 s.sampleRate ∧ u32 s.sampleRate ≤ 2 ^ 31 - 1
  /-- R45 item 3 -/
  sym_off    : s.symValid = false → s.freqLow = 0 ∧ s.freqHigh = 0 ∧ s.lenLow = 0 ∧ s.lenHigh = 0
  /-- R45 item 4, the low symbol -/
  sym_low    : s.symValid = true → SymbolOk s.sampleRate s.freqLow s.lenLow s.params.symCap s.symLow
  /-- R45 item 4, the high symbol -/
  sym_high   : s.symValid = true → SymbolOk s.sampleRate s.freqHigh s.lenHigh s.params.symCap s.symHigh
  /-- R33, R45 item 4 -/
  sym_ne     : s.symValid = true → s.freqLow ≠ s.freqHigh
  /-- R45 item 5 -/
  cursor     : u32 s.rdPtr ≤ u32 s.outLen ∧ u32 s.outLen ≤ s.params.outCap
  /-- R45 item 6 -/
  ecode_le   : s.ecode ≤ 0xB#4
  /-- R43, R101: every valid sample has been written by a command, and 0x80 is never produced -/
  out_valid  : ∀ k, k < u32 s.outLen → ∃ b, Memory.read s.out k = some b ∧ b ≠ 0x80#8
  /-- R42 -/
  low_array  : ArrayOk s.params.symCap s.symLow
  /-- R42 -/
  high_array : ArrayOk s.params.symCap s.symHigh
  /-- R43 -/
  out_array  : ArrayOk s.params.outCap s.out

/-- The valid output, sample by sample: `OUT[0 … OUT_LEN−1]` (R43). -/
def outputOf (s : State) : List Byte := (List.range (u32 s.outLen)).map (sampleAt .out s.out)

/-- The part of the state that is the symbol cache (R29, R42): what the configuring commands write. -/
def cacheOf (s : State) : Bool × Word × Word × Word × Word × Memory × Memory :=
  (s.symValid, s.freqLow, s.freqHigh, s.lenLow, s.lenHigh, s.symLow, s.symHigh)

/-- The end of a completion step, spelled out (R193, R194): ECODE, INFLIGHT and BUSY, nothing else. -/
def ended (s : State) (code : BitVec 4) : State := { s with ecode := code, inflight := none, busy := false }

/-- A host read of `n` bytes at byte offset `off` of this block's window (R7, R160). -/
def readAt (s : State) (off n : Nat) : State := performAccess ⟨.read, s.params.blockBase + off, n, 0⟩ s

/-- A host write of `v`, `n` bytes wide, at byte offset `off` of this block's window (R7, R160). -/
def writeAt (s : State) (off n : Nat) (v : Word) : State := performAccess ⟨.write, s.params.blockBase + off, n, v⟩ s

/-- `s` with the command `c` in flight on the operands `a0` and `a1` (R44). -/
def inFlight (s : State) (c a0 a1 : Word) : State := { s with inflight := some ⟨c, a0, a1⟩, busy := true }

/-- No second master is about to access this instance (R203). -/
def OneHost (s : State) : Prop := ∀ t ∈ s.turns, ∀ a, t ≠ Turn.foreign a

/-- `trunc(x) = sign(x) × floor(|x|)` of a real `x` (R6). Claims only: no meaning computes with reals. -/
noncomputable def truncReal (x : ℝ) : ℤ := if 0 ≤ x then ⌊x⌋ else -⌊-x⌋

/-- `127 × sin(2 × π × i / N)` over exact reals (R100). Claims only. -/
noncomputable def exactSine (i N : ℕ) : ℝ := 127 * Real.sin (2 * Real.pi * i / N)

end Sys2Proof.Machine
end

