-- ==== Sys2Proof/Certificates/Slice0/Obligations.lean ====
section
/-! DEFINITION. The statements for the provers. Each docstring says which rule of spec/ it formalises. Operands are
written as `toInt` and `toNat` of the latched words, codes and offsets as numbers, so that a statement reads beside
the spec without the model's own names for them. -/

open Sys2Proof Sys2Proof.Machine

/-! ### Encoding -/

/-- R82, R83: the four command words, written out bit by bit from the table, and words the table leaves out. -/
def Obligations.CommandWordsDecode : Prop :=
  decodeWord 0b00000000000000000000000000000001#32 = .ok .cfgRate ∧
  decodeWord 0b00000000000000000000000000000010#32 = .ok .wave ∧
  decodeWord 0b00000000000000000000000000000011#32 = .ok .cfgFsk ∧
  decodeWord 0b00000000000000000000000000000100#32 = .ok .encodeBit ∧
  decodeWord 0x00000000#32 = .rejected .reservedOpcode ∧
  decodeWord 0x00000005#32 = .rejected .reservedOpcode ∧
  decodeWord 0x000000FF#32 = .rejected .reservedOpcode ∧
  decodeWord 0x00000101#32 = .rejected .reservedBits ∧
  decodeWord 0x80000002#32 = .rejected .reservedBits

/-- R82: "A command word selects its command only when the whole word matches": every word that decodes to a
command is that command's word, and that word decodes to it. -/
def Obligations.DecodeAndEncodeAgree : Prop :=
  ∀ (w : Word) (i : Instr), decodeWord w = .ok i ↔ w = encode i

/-- R62: four bytes, lowest address first, decode as the word they hold; fewer are no command word. -/
def Obligations.BytesDecodeAsTheirWord : Prop :=
  (∀ (w : Word) (rest : List Byte), decodeBytes (bytesOfWord w ++ rest) =
    match decodeWord w with
    | .ok i => .ok (i, rest)
    | .rejected e => .rejected e) ∧
  (∀ bs : List Byte, bs.length < 4 → decodeBytes bs = .rejected .truncated) ∧
  (∀ (w : Word) (k : Nat), k < 4 → (bytesOfWord w)[k]? = some (w.extractLsb' (8 * k) 8))

/-- R83: the illegal words; each is still issued, and its completion ends with ILLEGAL_CMD and no other effect. -/
def Obligations.IllegalWordsIssueAndFail : Prop :=
  ∀ v : Word, (v.extractLsb' 8 24 ≠ 0 ∨ v.extractLsb' 0 8 = 0 ∨ 0x05#8 ≤ v.extractLsb' 0 8) →
    (∀ s : State, s.busy = false → writeAt s 0x00 4 v =
      { s with inflight := some ⟨v, s.arg0, s.arg1⟩, cmdLast := v, busy := true, ecode := 0 }) ∧
    (∀ (s : State) (a0 a1 : Word), s.inflight = some ⟨v, a0, a1⟩ → completionStep s = .next (ended s 0x1#4))

/-! ### The step -/

/-- R8, R191: at the block's turn, or with no interleaving left to follow, the step on a latched word that decodes
to a command is that command's meaning; the turn is used up, and nothing else is added. -/
def Obligations.StepRunsDecodedCommand : Prop :=
  ∀ (s : State) (q : Inflight) (i : Instr),
    (s.turns = [] ∨ s.turns.head? = some .block) → s.inflight = some q → decodeWord q.c = .ok i →
    step s = exec i { s with turns := s.turns.tail }

/-- The placed command runs at the very next step, with the operands ARG0 and ARG1 hold (R44, R161). -/
def Obligations.StepRunsPlacedCommand : Prop :=
  ∀ (s : State) (v : Word) (i : Instr), decodeWord v = .ok i →
    step (s.withFetchWord 32 v.toNat) =
      exec i { s with inflight := some ⟨v, s.arg0, s.arg1⟩, cmdLast := v, busy := true, ecode := 0 }

/-- R8, R68: at the host's turn the step is the next access of its program; with nothing in flight the host goes
on when no interleaving is left (that default is the model's, log entry 2). -/
def Obligations.StepPerformsHostAccess : Prop :=
  ∀ (s : State) (a : Access) (rest : List HostOp),
    (s.turns.head? = some .host ∨ (s.turns = [] ∧ s.inflight = none)) → s.host = .access a :: rest →
    step s = .next (performAccess a { s with host := rest, turns := s.turns.tail })

/-- R86: `poll` reads STATUS, and goes on only once BUSY reads 0. -/
def Obligations.PollRepeatsWhileBusy : Prop :=
  ∀ (s : State) (rest : List HostOp), s.turns.head? = some .host → s.host = .poll :: rest →
    ∃ v : Word, v.getLsbD 0 = s.busy ∧ v.extractLsb' 4 4 = s.ecode ∧
      step s = .next { s with turns := s.turns.tail, reads := v :: s.reads,
                              host := if s.busy then .poll :: rest else rest }

/-- R220: what the platform's reset leaves: every register at its reset value, nothing in flight, the parameters
unchanged. (That the host's program and the interleaving go on is the model's, log entry 2.) -/
def Obligations.ResetClearsTheBlock : Prop :=
  ∀ s : State, s.turns.head? = some .reset → ∃ t : State, step s = .next t ∧
    t.cmdLast = 0 ∧ t.arg0 = 0 ∧ t.arg1 = 0 ∧
    t.busy = false ∧ t.aerr = false ∧ t.rateValid = false ∧ t.symValid = false ∧ t.ecode = 0 ∧
    t.sampleRate = 0 ∧ t.freqLow = 0 ∧ t.freqHigh = 0 ∧ t.lenLow = 0 ∧ t.lenHigh = 0 ∧
    t.outLen = 0 ∧ t.rdPtr = 0 ∧ symSize t = 0 ∧ t.inflight = none ∧ t.params = s.params ∧
    t.host = s.host ∧ t.turns = s.turns.tail ∧ t.reads = s.reads ∧ t.draws = s.draws

/-- R203: a second bus master on the same instance is refused. -/
def Obligations.SecondMasterIsRefused : Prop :=
  ∀ (s : State) (a : Access), s.turns.head? = some (.foreign a) → step s = .refused .sharedInstance

/-- R203: instances share nothing: a step of one moves that one as `step` does and leaves every other as it was.
(That a host access can reach only the instance whose program it stands in, whatever its address, is the model's, log
entry 16.) -/
def Obligations.InstancesStepAlone : Prop :=
  ∀ (k : Nat) (blocks : List State) (s t : State), blocks[k]? = some s → step s = .next t →
    ∃ after : List State, stepInstance k blocks = .next after ∧ after.length = blocks.length ∧
      after[k]? = some t ∧ ∀ j, j ≠ k → after[j]? = blocks[j]?

/-- R204: with BUSY = 0 and a host that does nothing, the block is idle and its state persists. -/
def Obligations.IdleStatePersists : Prop :=
  ∀ s : State, s.turns = [] → s.inflight = none → s.host = [] → step s = .next s

/-- R198: nothing but a second master stops the machine: no command error and no access error does. Two of the
steps it covers go on by the model's own choice and not by R198: a host access outside the window (log entry 6,
DESIGN CHOICE: a platform may stop the host there) and a turn of the block with nothing in flight (log entry 2,
DESIGN CHOICE: the turn passes). -/
def Obligations.StepNeverTraps : Prop :=
  ∀ s : State, (∀ a, s.turns.head? ≠ some (.foreign a)) → ∃ t, step s = .next t

/-! ### The commands -/

/-- R106: CFG_RATE: its word, its one check, and the result of success. -/
def Obligations.CfgRateResult : Prop :=
  decodeWord 0x00000001#32 = .ok .cfgRate ∧
  ∀ (s : State) (q : Inflight), s.inflight = some q →
    (q.a0.toInt ≤ 0 → exec .cfgRate s = .next (ended s 0x2#4)) ∧
    (0 < q.a0.toInt → exec .cfgRate s = .next
      { s with sampleRate := q.a0, rateValid := true, symValid := false,
               freqLow := 0, freqHigh := 0, lenLow := 0, lenHigh := 0,
               outLen := 0, rdPtr := 0, ecode := 0, inflight := none, busy := false })

/-- R107 (with R104, R108, R109): WAVE: its word, every check in order and the result of success. -/
def Obligations.WaveResult : Prop :=
  decodeWord 0x00000002#32 = .ok .wave ∧
  ∀ (s : State) (q : Inflight) (f c R : Int),
    s.inflight = some q → s.params.legal = true →
    f = q.a0.toInt → c = q.a1.toInt → R = s.sampleRate.toNat →
    (s.rateValid = false → exec .wave s = .next (ended s 0x8#4)) ∧
    (s.rateValid = true → f ≤ 0 → exec .wave s = .next (ended s 0x3#4)) ∧
    (s.rateValid = true → 0 < f → R < 4 * f → exec .wave s = .next (ended s 0x4#4)) ∧
    (s.rateValid = true → 0 < f → 4 * f ≤ R → c ≤ 0 → exec .wave s = .next (ended s 0x7#4)) ∧
    (s.rateValid = true → 0 < f → 4 * f ≤ R → 0 < c → s.params.symCap < R / f →
      exec .wave s = .next (ended s 0xA#4)) ∧
    (s.rateValid = true → 0 < f → 4 * f ≤ R → 0 < c → R / f ≤ s.params.symCap →
      s.params.outCap < R / f * c → exec .wave s = .next (ended s 0xB#4)) ∧
    (s.rateValid = true → 0 < f → 4 * f ≤ R → 0 < c → R / f ≤ s.params.symCap →
      R / f * c ≤ s.params.outCap →
      ∃ (m : Memory) (L : Word), exec .wave s = .next
          { s with out := m, outLen := L, rdPtr := 0, ecode := 0, inflight := none, busy := false } ∧
        (L.toNat : Int) = R / f * c ∧ m.wf ∧
        ∀ k : Nat, k < L.toNat → Memory.read m k = some (sample (k % (R / f).toNat) (R / f).toNat))

/-- R131: CFG_FSK: its word, every check in order and the result of success; cache entries beyond a symbol's
length keep what they held. -/
def Obligations.CfgFskResult : Prop :=
  decodeWord 0x00000003#32 = .ok .cfgFsk ∧
  ∀ (s : State) (q : Inflight) (fl fh R : Int),
    s.inflight = some q → s.params.legal = true →
    fl = q.a0.toInt → fh = q.a1.toInt → R = s.sampleRate.toNat →
    (s.rateValid = false → exec .cfgFsk s = .next (ended s 0x8#4)) ∧
    (s.rateValid = true → (fl ≤ 0 ∨ fh ≤ 0) → exec .cfgFsk s = .next (ended s 0x3#4)) ∧
    (s.rateValid = true → 0 < fl → 0 < fh → fl = fh → exec .cfgFsk s = .next (ended s 0x5#4)) ∧
    (s.rateValid = true → 0 < fl → 0 < fh → fl ≠ fh → (R < 4 * fl ∨ R < 4 * fh) →
      exec .cfgFsk s = .next (ended s 0x4#4)) ∧
    (s.rateValid = true → 0 < fl → 0 < fh → fl ≠ fh → 4 * fl ≤ R → 4 * fh ≤ R →
      (s.params.symCap < R / fl ∨ s.params.symCap < R / fh) → exec .cfgFsk s = .next (ended s 0xA#4)) ∧
    (s.rateValid = true → 0 < fl → 0 < fh → fl ≠ fh → 4 * fl ≤ R → 4 * fh ≤ R →
      R / fl ≤ s.params.symCap → R / fh ≤ s.params.symCap →
      ∃ (ml mh : Memory) (Nl Nh : Word), exec .cfgFsk s = .next
          { s with symLow := ml, symHigh := mh, freqLow := q.a0, freqHigh := q.a1, lenLow := Nl, lenHigh := Nh,
                   symValid := true, outLen := 0, rdPtr := 0, ecode := 0, inflight := none, busy := false } ∧
        (Nl.toNat : Int) = R / fl ∧ (Nh.toNat : Int) = R / fh ∧
        (∀ i : Nat, Memory.read ml i = if i < Nl.toNat then some (sample i Nl.toNat) else Memory.read s.symLow i) ∧
        (∀ i : Nat, Memory.read mh i = if i < Nh.toNat then some (sample i Nh.toNat) else Memory.read s.symHigh i))

/-- R132, R133: ENCODE_BIT: its word, every check in order and the result of success: bit 0 takes the low symbol,
bit 1 the high one. -/
def Obligations.EncodeBitResult : Prop :=
  decodeWord 0x00000004#32 = .ok .encodeBit ∧
  ∀ (s : State) (q : Inflight) (b c : Int) (L : Nat) (sym : Nat → Byte),
    s.inflight = some q → s.params.legal = true → b = q.a0.toInt → c = q.a1.toInt →
    (b = 0 → L = s.lenLow.toNat ∧ sym = sampleAt .symLow s.symLow) →
    (b = 1 → L = s.lenHigh.toNat ∧ sym = sampleAt .symHigh s.symHigh) →
    (s.symValid = false → exec .encodeBit s = .next (ended s 0x9#4)) ∧
    (s.symValid = true → b ≠ 0 → b ≠ 1 → exec .encodeBit s = .next (ended s 0x6#4)) ∧
    (s.symValid = true → (b = 0 ∨ b = 1) → c ≤ 0 → exec .encodeBit s = .next (ended s 0x7#4)) ∧
    (s.symValid = true → (b = 0 ∨ b = 1) → 0 < c → s.params.outCap < L * c →
      exec .encodeBit s = .next (ended s 0xB#4)) ∧
    (s.symValid = true → (b = 0 ∨ b = 1) → 0 < c → L * c ≤ s.params.outCap →
      ∃ (m : Memory) (len : Word), exec .encodeBit s = .next
          { s with out := m, outLen := len, rdPtr := 0, ecode := 0, inflight := none, busy := false } ∧
        (len.toNat : Int) = L * c ∧ m.wf ∧
        ∀ k : Nat, k < len.toNat → Memory.read m k = some (sym (k % L)))

/-- R193: a completion that ends with an error code changes ECODE, INFLIGHT and BUSY, and nothing else. -/
def Obligations.FailedCommandChangesOnlyItsCode : Prop :=
  ∀ (s t : State) (q : Inflight), s.inflight = some q → completionStep s = .next t → t.ecode ≠ 0 →
    t = { s with ecode := t.ecode, inflight := none, busy := false }

/-- R190, R191, R200: every command in flight is ended by one completion step, with a code of R192; AERR, CMD_LAST
and the operand registers are as they were, and so are the parameters and the host. -/
def Obligations.EveryCommandCompletes : Prop :=
  ∀ (s : State) (q : Inflight), s.inflight = some q → ∃ t : State, completionStep s = .next t ∧
    t.inflight = none ∧ t.busy = false ∧ t.ecode ≤ 0xB#4 ∧ t.aerr = s.aerr ∧
    t.cmdLast = s.cmdLast ∧ t.arg0 = s.arg0 ∧ t.arg1 = s.arg1 ∧ t.params = s.params ∧
    t.host = s.host ∧ t.turns = s.turns ∧ t.reads = s.reads ∧ t.draws = s.draws

/-- R44, R69: a completion depends on the latched operands only: whatever ARG0, ARG1 and CMD_LAST hold, it does
the same and leaves them as they are. -/
def Obligations.CompletionIgnoresLaterOperands : Prop :=
  ∀ (s t : State) (q : Inflight) (x y z : Word), s.inflight = some q → completionStep s = .next t →
    completionStep { s with arg0 := x, arg1 := y, cmdLast := z } =
      .next { t with arg0 := x, arg1 := y, cmdLast := z }

/-! ### Host register access -/

/-- R161: a CMD write while BUSY = 0 issues the command. -/
def Obligations.CmdWriteIssues : Prop :=
  ∀ (s : State) (v : Word), s.busy = false → writeAt s 0x00 4 v =
    { s with inflight := some ⟨v, s.arg0, s.arg1⟩, cmdLast := v, busy := true, ecode := 0 }

/-- R162: a CMD read while BUSY = 0 returns CMD_LAST, 0 after reset, and changes nothing. -/
def Obligations.CmdReadReturnsLastIssued : Prop :=
  (∀ s : State, s.busy = false → readAt s 0x00 4 = { s with reads := s.cmdLast :: s.reads }) ∧
  (∀ p : Params, (readAt (State.initial p) 0x00 4).reads = [0])

/-- R163: an ARG0 or ARG1 write while BUSY = 0 stores all 32 bits. -/
def Obligations.ArgWritesStore : Prop :=
  ∀ (s : State) (v : Word), s.busy = false →
    writeAt s 0x04 4 v = { s with arg0 := v } ∧ writeAt s 0x08 4 v = { s with arg1 := v }

/-- R164: an ARG0 or ARG1 read while BUSY = 0 returns the stored value and changes nothing. -/
def Obligations.ArgReadsReturn : Prop :=
  ∀ s : State, s.busy = false →
    readAt s 0x04 4 = { s with reads := s.arg0 :: s.reads } ∧
    readAt s 0x08 4 = { s with reads := s.arg1 :: s.reads }

/-- R165, R25: a STATUS read is accepted at any time, returns the fields at their places with bits [31:8] = 0, and
clears nothing. -/
def Obligations.StatusReadShowsFields : Prop :=
  ∀ s : State, ∃ v : Word, readAt s 0x0C 4 = { s with reads := v :: s.reads } ∧
    v.extractLsb' 4 4 = s.ecode ∧ v.getLsbD 3 = s.symValid ∧ v.getLsbD 2 = s.rateValid ∧
    v.getLsbD 1 = s.aerr ∧ v.getLsbD 0 = s.busy ∧ v.extractLsb' 8 24 = 0

/-- R166: a STATUS write while BUSY = 0 clears AERR if bit 1 is 1, and nothing else; while BUSY = 1 it is refused,
and that sets AERR. -/
def Obligations.StatusWriteClearsAerr : Prop :=
  ∀ (s : State) (v : Word),
    (s.busy = false → writeAt s 0x0C 4 v = { s with aerr := if v.getLsbD 1 then false else s.aerr }) ∧
    (s.busy = true → writeAt s 0x0C 4 v = { s with aerr := true })

/-- R167: the read-only registers while BUSY = 0. -/
def Obligations.ReadOnlyRegistersRead : Prop :=
  ∀ s : State, s.busy = false →
    readAt s 0x10 4 = { s with reads := s.sampleRate :: s.reads } ∧
    readAt s 0x14 4 = { s with reads := s.freqLow :: s.reads } ∧
    readAt s 0x18 4 = { s with reads := s.freqHigh :: s.reads } ∧
    readAt s 0x1C 4 = { s with reads := s.lenLow :: s.reads } ∧
    readAt s 0x20 4 = { s with reads := s.lenHigh :: s.reads } ∧
    (∃ v : Word, readAt s 0x24 4 = { s with reads := v :: s.reads } ∧
      v.toNat = if s.symValid then max s.lenLow.toNat s.lenHigh.toNat else 0) ∧
    readAt s 0x28 4 = { s with reads := s.outLen :: s.reads } ∧
    readAt s 0x34 4 = { s with reads := BitVec.ofNat 32 s.params.symCap :: s.reads } ∧
    readAt s 0x38 4 = { s with reads := BitVec.ofNat 32 s.params.outCap :: s.reads }

/-- R168: a write to a read-only register is ignored and sets AERR. -/
def Obligations.ReadOnlyRegistersRefuseWrites : Prop :=
  ∀ (s : State) (v : Word) (off : Nat),
    off ∈ [0x10, 0x14, 0x18, 0x1C, 0x20, 0x24, 0x28, 0x34, 0x38] →
    writeAt s off 4 v = { s with aerr := true }

/-- R169: a RD_PTR read while BUSY = 0 returns the cursor and changes nothing. -/
def Obligations.CursorRead : Prop :=
  ∀ s : State, s.busy = false → readAt s 0x2C 4 = { s with reads := s.rdPtr :: s.reads }

/-- R170: a RD_PTR write while BUSY = 0 moves the cursor up to OUT_LEN, and is refused beyond; with bit 31 set it
is always refused. -/
def Obligations.CursorWrite : Prop :=
  ∀ (s : State) (v : Word), s.busy = false →
    (v.toNat ≤ s.outLen.toNat → writeAt s 0x2C 4 v = { s with rdPtr := v }) ∧
    (s.outLen.toNat < v.toNat → writeAt s 0x2C 4 v = { s with aerr := true }) ∧
    (Inv s → v.getLsbD 31 = true → writeAt s 0x2C 4 v = { s with aerr := true })

/-- R171: an OUT_DATA read while BUSY = 0 returns the sample at the cursor, sign-extended, and advances the
cursor; at the end it returns 0, sets AERR and leaves the cursor. -/
def Obligations.OutDataRead : Prop :=
  ∀ s : State, s.busy = false →
    (s.rdPtr.toNat < s.outLen.toNat → ∃ v r : Word,
      readAt s 0x30 4 = { s with rdPtr := r, reads := v :: s.reads } ∧
      r.toNat = s.rdPtr.toNat + 1 ∧ v.toInt = (sampleAt .out s.out s.rdPtr.toNat).toInt) ∧
    (s.outLen.toNat ≤ s.rdPtr.toNat → readAt s 0x30 4 = { s with aerr := true, reads := 0 :: s.reads })

/-- R172: an OUT_DATA write is ignored and sets AERR. -/
def Obligations.OutDataRefusesWrites : Prop :=
  ∀ (s : State) (v : Word), writeAt s 0x30 4 v = { s with aerr := true }

/-- R173: at the reserved offset 0x3C, while BUSY = 0, a read returns 0 and a write is ignored; both set AERR. -/
def Obligations.ReservedOffset : Prop :=
  ∀ (s : State) (v : Word), s.busy = false →
    readAt s 0x3C 4 = { s with aerr := true, reads := 0 :: s.reads } ∧
    writeAt s 0x3C 4 v = { s with aerr := true }

/-- R174: while BUSY = 1 every accepted shape but a STATUS read is refused: a write does nothing but set AERR, a
read returns an unspecified value with no side effect but AERR. -/
def Obligations.BusyRefusesAccess : Prop :=
  ∀ (s : State) (v : Word) (off : Nat), s.busy = true → off < 0x40 → off % 4 = 0 →
    writeAt s off 4 v = { s with aerr := true } ∧
    (off ≠ 0x0C → ∃ x : Word,
      readAt s off 4 = { s with aerr := true, reads := x :: s.reads, draws := s.draws + 1 })

/-- R175, R63: an access of another width, or misaligned, is ignored whether BUSY is 0 or 1; a read of it returns 0;
AERR is set. -/
def Obligations.BadShapeIsRefused : Prop :=
  ∀ (s : State) (v : Word) (off n : Nat), off < 0x40 → (n ≠ 4 ∨ off % 4 ≠ 0) →
    writeAt s off n v = { s with aerr := true } ∧
    readAt s off n = { s with aerr := true, reads := 0 :: s.reads }

/-- R61: the block does not respond outside its window. (What a read there returns is the platform's, a free
value; that the host observes one is the model's, log entry 6.) -/
def Obligations.NoResponseOutsideTheWindow : Prop :=
  ∀ (s : State) (a : Access), (a.addr < s.params.blockBase ∨ s.params.blockBase + 0x3F < a.addr) →
    (a.dir = .write → performAccess a s = s) ∧
    (a.dir = .read → ∃ x : Word, performAccess a s = { s with reads := x :: s.reads, draws := s.draws + 1 })

/-- R174, R197, R200: while a command is in flight, whatever the host does leaves the block as it is, but for AERR. -/
def Obligations.HostCannotDisturbCommandInFlight : Prop :=
  ∀ s : State, s.busy = true → s.turns.head? = some .host → ∃ t : State, step s = .next t ∧
    t = { s with aerr := t.aerr, host := t.host, turns := s.turns.tail, reads := t.reads, draws := t.draws } ∧
    (s.aerr = true → t.aerr = true)

/-! ### Whole-machine rules -/

/-- R27, R200: AERR is set by host accesses only, and cleared only by a reset or by a STATUS write with bit 1 set
while BUSY = 0. -/
def Obligations.AerrIsSticky : Prop :=
  ∀ s t : State, step s = .next t → t.aerr ≠ s.aerr →
    (t.aerr = true ∧ nextTurn s = .host ∧ ∃ a rest, s.host = .access a :: rest) ∨
    (t.aerr = false ∧ nextTurn s = .reset) ∨
    (t.aerr = false ∧ nextTurn s = .host ∧ s.busy = false ∧ ∃ v rest, v.getLsbD 1 = true ∧
      s.host = .access ⟨.write, s.params.blockBase + 0x0C, 4, v⟩ :: rest)

/-- R28, R31: the sample rate changes only by a reset or by a successful CFG_RATE; only a reset clears
RATE_VALID. -/
def Obligations.RateChangesOnlyByCfgRate : Prop :=
  ∀ s t : State, step s = .next t → (t.sampleRate ≠ s.sampleRate ∨ t.rateValid ≠ s.rateValid) →
    nextTurn s = .reset ∨
    (nextTurn s = .block ∧ t.rateValid = true ∧ t.ecode = 0 ∧
      ∃ q, s.inflight = some q ∧ q.c = 0x00000001#32 ∧ t.sampleRate = q.a0)

/-- R29, R72, R138: the symbol cache stays fixed but for a reset and the successful completion of a configuring
command. -/
def Obligations.CacheFixedBetweenConfigurations : Prop :=
  ∀ s t : State, step s = .next t → cacheOf t ≠ cacheOf s →
    nextTurn s = .reset ∨
    (nextTurn s = .block ∧ t.ecode = 0 ∧
      ∃ q, s.inflight = some q ∧ (q.c = 0x00000001#32 ∨ q.c = 0x00000003#32))

/-- R37, R43, R225: the output buffer and OUT_LEN change only by a reset or by the successful completion of a
command, which also puts the cursor at 0 (R38). -/
def Obligations.OutputReplacedOnlyByCommands : Prop :=
  ∀ s t : State, step s = .next t → (t.out ≠ s.out ∨ t.outLen ≠ s.outLen) →
    t.rdPtr = 0 ∧
    (nextTurn s = .reset ∨
      (nextTurn s = .block ∧ t.ecode = 0 ∧
        ∃ q, s.inflight = some q ∧ 1 ≤ q.c.toNat ∧ q.c.toNat ≤ 4))

/-- R26: BUSY is set only by a CMD write while BUSY = 0, and cleared only by a completion or a reset. -/
def Obligations.BusyChangesOnlyByIssueAndCompletion : Prop :=
  ∀ s t : State, step s = .next t → t.busy ≠ s.busy →
    (t.busy = true ∧ nextTurn s = .host ∧ ∃ v rest,
      s.host = .access ⟨.write, s.params.blockBase + 0x00, 4, v⟩ :: rest ∧
      t.inflight = some ⟨v, s.arg0, s.arg1⟩ ∧ t.cmdLast = v ∧ t.ecode = 0) ∨
    (t.busy = false ∧ (nextTurn s = .block ∨ nextTurn s = .reset))

/-- R22, R23, R24, R163: CMD_LAST and the operand registers change only by a host access while BUSY = 0, or by a
reset. -/
def Obligations.OperandRegistersChangeOnlyByTheHost : Prop :=
  ∀ s t : State, step s = .next t → (t.cmdLast ≠ s.cmdLast ∨ t.arg0 ≠ s.arg0 ∨ t.arg1 ≠ s.arg1) →
    nextTurn s = .reset ∨ (nextTurn s = .host ∧ s.busy = false)

/-- R38: the cursor moves only by a reset, by the successful completion of a command, and by a host access while
BUSY = 0; a host access never leaves it beyond OUT_LEN if it was not. -/
def Obligations.CursorMovesOnlyByItsWriters : Prop :=
  ∀ s t : State, step s = .next t → t.rdPtr ≠ s.rdPtr →
    (nextTurn s = .reset ∧ t.rdPtr = 0) ∨ (nextTurn s = .block ∧ t.ecode = 0 ∧ t.rdPtr = 0) ∨
    (nextTurn s = .host ∧ s.busy = false ∧ t.outLen = s.outLen ∧ t.rdPtr.toNat ≤ t.outLen.toNat)

/-- R4, R40, R41, R220: SYM_CAP, OUT_CAP and BLOCK_BASE are constants of the machine. -/
def Obligations.ParametersAreConstant : Prop :=
  ∀ s t : State, step s = .next t → t.params = s.params

/-- R45: the invariant holds right after reset, in every legal configuration. -/
def Obligations.InvAfterReset : Prop :=
  (∀ p : Params, p.legal = true → Inv (State.initial p)) ∧ Inv State.reset

/-- R45: every step of every agent keeps the invariant. -/
def Obligations.StepKeepsInv : Prop :=
  ∀ s t : State, Inv s → step s = .next t → Inv t

/-- R45: "These hold in every state reachable from reset": whatever the host does and however the agents
interleave. -/
def Obligations.ReachableStatesMeetInv : Prop :=
  ∀ (p : Params) (program : List HostOp) (interleaving : List Turn) (k : Nat) (t : State), p.legal = true →
    Host.Core.run Sys2Proof.core k
      ({ State.initial p with host := program, turns := interleaving } : State) = .next t → Inv t

/-- A `poll` ends, as R228 and R223 promise under fairness. The bound is the model's choice and no rule's: R228
promises none. It rests on the finite `turns` and the default after them (log entries 2 and 12, DESIGN CHOICE): with
any interleaving still to come, one completion and one read after it are enough. -/
def Obligations.PollEnds : Prop :=
  ∀ (s : State) (rest : List HostOp), Inv s → OneHost s → s.host = .poll :: rest →
    ∃ (k : Nat) (t : State), k ≤ s.turns.length + 2 ∧
      Host.Core.run Sys2Proof.core k s = .next t ∧ t.host = rest

/-! ### The sample function -/

/-- R100: `S(i, N) = trunc(127 × sin(2πi/N))` over exact reals; the stored sample is its two's complement. R100 has no
upper bound on N: `N < 2 ^ 32` is the model's (log entry 5, DEDUCED), and no register holds a larger N. -/
def Obligations.SampleIsTruncatedSine : Prop :=
  ∀ i N : Nat, 4 ≤ N → N < 2 ^ 32 → i < N →
    S i N = truncReal (exactSine i N) ∧ (sample i N).toInt = truncReal (exactSine i N)

/-- R101: the range of S, and its 8-bit pattern; 0x80 is never produced. -/
def Obligations.SampleRange : Prop :=
  (∀ i N : Nat, -127 ≤ S i N ∧ S i N ≤ 127 ∧ (sample i N).toInt = S i N ∧ sample i N ≠ 0x80#8) ∧
  sample 2 8 = 0x7F#8 ∧ sample 1 8 = 0x59#8 ∧ sample 5 8 = 0xA7#8 ∧ sample 6 8 = 0x81#8

/-- R102: the five laws of S. -/
def Obligations.SampleLaws : Prop :=
  ∀ N : Nat, 4 ≤ N →
    S 0 N = 0 ∧
    (∀ i, 1 ≤ i → i < N → S (N - i) N = -S i N) ∧
    (N % 2 = 0 → S (N / 2) N = 0 ∧ ∀ i, i ≤ N / 2 → S (N / 2 - i) N = S i N) ∧
    (N % 4 = 0 → S (N / 4) N = 127 ∧ S (3 * N / 4) N = -127) ∧
    (N % 4 ≠ 0 → ∀ i, i < N → S i N ≠ 127 ∧ S i N ≠ -127) ∧
    (N = 5 → (∃ i, i < N ∧ S i N = 120) ∧ ∀ i, i < N → S i N ≤ 120) ∧
    (798 ≤ N → S 1 N = 0) ∧ (N = 797 → S 1 N = 1)

/-- R103: for N up to 8192 an exact value is 0, 127 or −127, or at least 6.6 × 10^−8 from every integer; so an
evaluation closer than that truncates to S. Left out of the second clause are the exact values 127 and −127 only,
where an evaluation just short of the integer truncates to 126 or −126. -/
def Obligations.SamplePrecisionMargin : Prop :=
  ∀ i N : Nat, 4 ≤ N → N ≤ 8192 → i < N →
    ((exactSine i N = 0 ∨ exactSine i N = 127 ∨ exactSine i N = -127) ∨
      ∀ m : ℤ, (66 : ℝ) / 10 ^ 9 ≤ |exactSine i N - m|) ∧
    ∀ y : ℝ, |y - exactSine i N| < (66 : ℝ) / 10 ^ 9 → exactSine i N ≠ 127 → exactSine i N ≠ -127 →
      truncReal y = S i N

/-! ### The symbol cache and its output -/

/-- R130: each symbol is what a WAVE of one cycle at its frequency would produce at the same rate. -/
def Obligations.SymbolIsOneCycleOfWave : Prop :=
  ∀ (s t : State) (fl fh : Word), s.params.legal = true →
    exec .cfgFsk (inFlight s 3 fl fh) = .next t → t.ecode = 0 →
    ∃ u w : State,
      exec .wave (inFlight s 2 fl 1) = .next u ∧ u.ecode = 0 ∧ u.outLen = t.lenLow ∧
      (∀ i, i < t.lenLow.toNat → Memory.read t.symLow i = Memory.read u.out i) ∧
      exec .wave (inFlight s 2 fh 1) = .next w ∧ w.ecode = 0 ∧ w.outLen = t.lenHigh ∧
      (∀ i, i < t.lenHigh.toNat → Memory.read t.symHigh i = Memory.read w.out i)

/-- R134: after a successful ENCODE_BIT the output is the symbol by index, that is S by index. -/
def Obligations.EncodedOutputByIndex : Prop :=
  ∀ (s t : State) (b c : Word) (L : Nat), Inv s → s.symValid = true → (b = 0 ∨ b = 1) →
    L = (if b = 0 then s.lenLow.toNat else s.lenHigh.toNat) →
    exec .encodeBit (inFlight s 4 b c) = .next t → t.ecode = 0 →
    (t.outLen.toNat : Int) = L * c.toInt ∧
    ∀ k, k < t.outLen.toNat →
      Memory.read t.out k = some (sample (k % L) L) ∧
      Memory.read t.out k = Memory.read (if b = 0 then s.symLow else s.symHigh) (k % L)

/-- R136: the replication laws, over the output as a sequence: counts add up, eight single bits are one bit of
count 8, and a bit is a WAVE at its frequency. -/
def Obligations.ReplicationLaws : Prop :=
  ∀ (s : State) (b f : Word) (L : Nat), Inv s → s.symValid = true → (b = 0 ∨ b = 1) →
    f = (if b = 0 then s.freqLow else s.freqHigh) →
    L = (if b = 0 then s.lenLow.toNat else s.lenHigh.toNat) →
    (∀ c d e : Word, 0 < c.toInt → 0 < d.toInt → e.toInt = c.toInt + d.toInt → L * e.toInt ≤ s.params.outCap →
      ∃ x y z : State,
        exec .encodeBit (inFlight s 4 b c) = .next x ∧ x.ecode = 0 ∧
        exec .encodeBit (inFlight s 4 b d) = .next y ∧ y.ecode = 0 ∧
        exec .encodeBit (inFlight s 4 b e) = .next z ∧ z.ecode = 0 ∧
        outputOf z = outputOf x ++ outputOf y) ∧
    (L * 8 ≤ s.params.outCap →
      ∃ x z : State,
        exec .encodeBit (inFlight s 4 b 1) = .next x ∧ x.ecode = 0 ∧
        exec .encodeBit (inFlight s 4 b 8) = .next z ∧ z.ecode = 0 ∧
        outputOf z = (List.replicate 8 (outputOf x)).flatten) ∧
    (∀ c : Word, 0 < c.toInt → L * c.toInt ≤ s.params.outCap →
      ∃ x z : State,
        exec .encodeBit (inFlight s 4 b c) = .next x ∧ x.ecode = 0 ∧
        exec .wave (inFlight s 2 f c) = .next z ∧ z.ecode = 0 ∧
        outputOf z = outputOf x)

/-- R36, R135: SYM_SIZE reads the larger symbol length while SYM_VALID = 1, and 0 otherwise; it is the least
capacity that holds one symbol of either bit. -/
def Obligations.SymSizeIsLargestSymbol : Prop :=
  ∀ s : State, s.busy = false → ∃ v : Word, readAt s 0x24 4 = { s with reads := v :: s.reads } ∧
    (s.symValid = false → v = 0) ∧
    (s.symValid = true → (v = s.lenLow ∨ v = s.lenHigh) ∧ s.lenLow.toNat ≤ v.toNat ∧ s.lenHigh.toNat ≤ v.toNat)

/-- R137: "low" and "high" are labels: with the two frequencies exchanged CFG_FSK ends with the same code, and on
success with the two symbols exchanged. -/
def Obligations.LowAndHighAreLabels : Prop :=
  ∀ (s t : State) (fl fh : Word), s.params.legal = true → exec .cfgFsk (inFlight s 3 fl fh) = .next t →
    ∃ u : State, exec .cfgFsk (inFlight s 3 fh fl) = .next u ∧ u.ecode = t.ecode ∧
      (t.ecode = 0 → u.lenLow = t.lenHigh ∧ u.lenHigh = t.lenLow ∧
        (∀ i, i < t.lenLow.toNat → Memory.read u.symHigh i = Memory.read t.symLow i) ∧
        (∀ i, i < t.lenHigh.toNat → Memory.read u.symLow i = Memory.read t.symHigh i))

/-! ### Host assembly -/

/-- R86: the bits a value assembles to: a decimal in the signed or the unsigned range reads back as itself, a
hexadecimal of at most 8 digits as its number, a mnemonic as a word that decodes to its command. -/
def Obligations.AssembledValues : Prop :=
  (∀ z : Int, -(2 ^ 31) ≤ z → z < 2 ^ 31 → (Value.dec z).bits.toInt = z) ∧
  (∀ z : Int, 0 ≤ z → z ≤ 2 ^ 32 - 1 → ((Value.dec z).bits.toNat : Int) = z) ∧
  (∀ n : Nat, n < 16 ^ 8 → (Value.hex n).bits.toNat = n) ∧
  (∀ i : Instr, decodeWord (Value.mnemonic i).bits = .ok i)

/-- R87: the lines each pseudo-instruction stands for, as bus transactions of a block at `base`. -/
def Obligations.PseudoInstructionsExpand : Prop :=
  ∀ (base n : Nat) (x y : Value),
    assemble base [.cfgRate x] =
      [.access ⟨.write, base + 0x04, 4, x.bits⟩, .access ⟨.write, base + 0x00, 4, 1⟩, .poll] ∧
    assemble base [.wave x y] =
      [.access ⟨.write, base + 0x04, 4, x.bits⟩, .access ⟨.write, base + 0x08, 4, y.bits⟩,
        .access ⟨.write, base + 0x00, 4, 2⟩, .poll] ∧
    assemble base [.cfgFsk x y] =
      [.access ⟨.write, base + 0x04, 4, x.bits⟩, .access ⟨.write, base + 0x08, 4, y.bits⟩,
        .access ⟨.write, base + 0x00, 4, 3⟩, .poll] ∧
    assemble base [.encodeBit x y] =
      [.access ⟨.write, base + 0x04, 4, x.bits⟩, .access ⟨.write, base + 0x08, 4, y.bits⟩,
        .access ⟨.write, base + 0x00, 4, 4⟩, .poll] ∧
    assemble base [.check] = [.access ⟨.read, base + 0x0C, 4, 0⟩] ∧
    assemble base [.seek x] = [.access ⟨.write, base + 0x2C, 4, x.bits⟩] ∧
    assemble base [.drain n] = List.replicate n (.access ⟨.read, base + 0x30, 4, 0⟩) ∧
    assemble base [.clrAerr] = [.access ⟨.write, base + 0x0C, 4, 2⟩]
end

