-- ==== Sys2Proof/Laws/State.lean ====
section
/-! SUPPORT. One lemma per field per operation on State, each true by unfolding: later proofs rewrite with these
and do not unfold an operation. -/

namespace Sys2Proof.Machine

@[simp] theorem issue_cmdLast (v : Word) (s : State) : (issue v s).cmdLast = v := rfl
@[simp] theorem issue_arg0 (v : Word) (s : State) : (issue v s).arg0 = s.arg0 := rfl
@[simp] theorem issue_arg1 (v : Word) (s : State) : (issue v s).arg1 = s.arg1 := rfl
@[simp] theorem issue_busy (v : Word) (s : State) : (issue v s).busy = true := rfl
@[simp] theorem issue_aerr (v : Word) (s : State) : (issue v s).aerr = s.aerr := rfl
@[simp] theorem issue_rateValid (v : Word) (s : State) : (issue v s).rateValid = s.rateValid := rfl
@[simp] theorem issue_symValid (v : Word) (s : State) : (issue v s).symValid = s.symValid := rfl
@[simp] theorem issue_ecode (v : Word) (s : State) : (issue v s).ecode = 0 := rfl
@[simp] theorem issue_sampleRate (v : Word) (s : State) : (issue v s).sampleRate = s.sampleRate := rfl
@[simp] theorem issue_freqLow (v : Word) (s : State) : (issue v s).freqLow = s.freqLow := rfl
@[simp] theorem issue_freqHigh (v : Word) (s : State) : (issue v s).freqHigh = s.freqHigh := rfl
@[simp] theorem issue_lenLow (v : Word) (s : State) : (issue v s).lenLow = s.lenLow := rfl
@[simp] theorem issue_lenHigh (v : Word) (s : State) : (issue v s).lenHigh = s.lenHigh := rfl
@[simp] theorem issue_outLen (v : Word) (s : State) : (issue v s).outLen = s.outLen := rfl
@[simp] theorem issue_rdPtr (v : Word) (s : State) : (issue v s).rdPtr = s.rdPtr := rfl
@[simp] theorem issue_symLow (v : Word) (s : State) : (issue v s).symLow = s.symLow := rfl
@[simp] theorem issue_symHigh (v : Word) (s : State) : (issue v s).symHigh = s.symHigh := rfl
@[simp] theorem issue_out (v : Word) (s : State) : (issue v s).out = s.out := rfl
@[simp] theorem issue_inflight (v : Word) (s : State) : (issue v s).inflight = some ⟨v, s.arg0, s.arg1⟩ := rfl
@[simp] theorem issue_params (v : Word) (s : State) : (issue v s).params = s.params := rfl
@[simp] theorem issue_host (v : Word) (s : State) : (issue v s).host = s.host := rfl
@[simp] theorem issue_turns (v : Word) (s : State) : (issue v s).turns = s.turns := rfl
@[simp] theorem issue_reads (v : Word) (s : State) : (issue v s).reads = s.reads := rfl
@[simp] theorem issue_draws (v : Word) (s : State) : (issue v s).draws = s.draws := rfl

@[simp] theorem cmdError_cmdLast (c : Code) (s : State) : (cmdError c s).cmdLast = s.cmdLast := rfl
@[simp] theorem cmdError_arg0 (c : Code) (s : State) : (cmdError c s).arg0 = s.arg0 := rfl
@[simp] theorem cmdError_arg1 (c : Code) (s : State) : (cmdError c s).arg1 = s.arg1 := rfl
@[simp] theorem cmdError_busy (c : Code) (s : State) : (cmdError c s).busy = false := rfl
@[simp] theorem cmdError_aerr (c : Code) (s : State) : (cmdError c s).aerr = s.aerr := rfl
@[simp] theorem cmdError_rateValid (c : Code) (s : State) : (cmdError c s).rateValid = s.rateValid := rfl
@[simp] theorem cmdError_symValid (c : Code) (s : State) : (cmdError c s).symValid = s.symValid := rfl
@[simp] theorem cmdError_ecode (c : Code) (s : State) : (cmdError c s).ecode = c.bits := rfl
@[simp] theorem cmdError_sampleRate (c : Code) (s : State) : (cmdError c s).sampleRate = s.sampleRate := rfl
@[simp] theorem cmdError_freqLow (c : Code) (s : State) : (cmdError c s).freqLow = s.freqLow := rfl
@[simp] theorem cmdError_freqHigh (c : Code) (s : State) : (cmdError c s).freqHigh = s.freqHigh := rfl
@[simp] theorem cmdError_lenLow (c : Code) (s : State) : (cmdError c s).lenLow = s.lenLow := rfl
@[simp] theorem cmdError_lenHigh (c : Code) (s : State) : (cmdError c s).lenHigh = s.lenHigh := rfl
@[simp] theorem cmdError_outLen (c : Code) (s : State) : (cmdError c s).outLen = s.outLen := rfl
@[simp] theorem cmdError_rdPtr (c : Code) (s : State) : (cmdError c s).rdPtr = s.rdPtr := rfl
@[simp] theorem cmdError_symLow (c : Code) (s : State) : (cmdError c s).symLow = s.symLow := rfl
@[simp] theorem cmdError_symHigh (c : Code) (s : State) : (cmdError c s).symHigh = s.symHigh := rfl
@[simp] theorem cmdError_out (c : Code) (s : State) : (cmdError c s).out = s.out := rfl
@[simp] theorem cmdError_inflight (c : Code) (s : State) : (cmdError c s).inflight = none := rfl
@[simp] theorem cmdError_params (c : Code) (s : State) : (cmdError c s).params = s.params := rfl
@[simp] theorem cmdError_host (c : Code) (s : State) : (cmdError c s).host = s.host := rfl
@[simp] theorem cmdError_turns (c : Code) (s : State) : (cmdError c s).turns = s.turns := rfl
@[simp] theorem cmdError_reads (c : Code) (s : State) : (cmdError c s).reads = s.reads := rfl
@[simp] theorem cmdError_draws (c : Code) (s : State) : (cmdError c s).draws = s.draws := rfl

@[simp] theorem finishOk_cmdLast (s : State) : (finishOk s).cmdLast = s.cmdLast := rfl
@[simp] theorem finishOk_arg0 (s : State) : (finishOk s).arg0 = s.arg0 := rfl
@[simp] theorem finishOk_arg1 (s : State) : (finishOk s).arg1 = s.arg1 := rfl
@[simp] theorem finishOk_busy (s : State) : (finishOk s).busy = false := rfl
@[simp] theorem finishOk_aerr (s : State) : (finishOk s).aerr = s.aerr := rfl
@[simp] theorem finishOk_rateValid (s : State) : (finishOk s).rateValid = s.rateValid := rfl
@[simp] theorem finishOk_symValid (s : State) : (finishOk s).symValid = s.symValid := rfl
@[simp] theorem finishOk_ecode (s : State) : (finishOk s).ecode = 0 := rfl
@[simp] theorem finishOk_sampleRate (s : State) : (finishOk s).sampleRate = s.sampleRate := rfl
@[simp] theorem finishOk_freqLow (s : State) : (finishOk s).freqLow = s.freqLow := rfl
@[simp] theorem finishOk_freqHigh (s : State) : (finishOk s).freqHigh = s.freqHigh := rfl
@[simp] theorem finishOk_lenLow (s : State) : (finishOk s).lenLow = s.lenLow := rfl
@[simp] theorem finishOk_lenHigh (s : State) : (finishOk s).lenHigh = s.lenHigh := rfl
@[simp] theorem finishOk_outLen (s : State) : (finishOk s).outLen = s.outLen := rfl
@[simp] theorem finishOk_rdPtr (s : State) : (finishOk s).rdPtr = s.rdPtr := rfl
@[simp] theorem finishOk_symLow (s : State) : (finishOk s).symLow = s.symLow := rfl
@[simp] theorem finishOk_symHigh (s : State) : (finishOk s).symHigh = s.symHigh := rfl
@[simp] theorem finishOk_out (s : State) : (finishOk s).out = s.out := rfl
@[simp] theorem finishOk_inflight (s : State) : (finishOk s).inflight = none := rfl
@[simp] theorem finishOk_params (s : State) : (finishOk s).params = s.params := rfl
@[simp] theorem finishOk_host (s : State) : (finishOk s).host = s.host := rfl
@[simp] theorem finishOk_turns (s : State) : (finishOk s).turns = s.turns := rfl
@[simp] theorem finishOk_reads (s : State) : (finishOk s).reads = s.reads := rfl
@[simp] theorem finishOk_draws (s : State) : (finishOk s).draws = s.draws := rfl

@[simp] theorem emptyOutput_cmdLast (s : State) : (emptyOutput s).cmdLast = s.cmdLast := rfl
@[simp] theorem emptyOutput_arg0 (s : State) : (emptyOutput s).arg0 = s.arg0 := rfl
@[simp] theorem emptyOutput_arg1 (s : State) : (emptyOutput s).arg1 = s.arg1 := rfl
@[simp] theorem emptyOutput_busy (s : State) : (emptyOutput s).busy = s.busy := rfl
@[simp] theorem emptyOutput_aerr (s : State) : (emptyOutput s).aerr = s.aerr := rfl
@[simp] theorem emptyOutput_rateValid (s : State) : (emptyOutput s).rateValid = s.rateValid := rfl
@[simp] theorem emptyOutput_symValid (s : State) : (emptyOutput s).symValid = s.symValid := rfl
@[simp] theorem emptyOutput_ecode (s : State) : (emptyOutput s).ecode = s.ecode := rfl
@[simp] theorem emptyOutput_sampleRate (s : State) : (emptyOutput s).sampleRate = s.sampleRate := rfl
@[simp] theorem emptyOutput_freqLow (s : State) : (emptyOutput s).freqLow = s.freqLow := rfl
@[simp] theorem emptyOutput_freqHigh (s : State) : (emptyOutput s).freqHigh = s.freqHigh := rfl
@[simp] theorem emptyOutput_lenLow (s : State) : (emptyOutput s).lenLow = s.lenLow := rfl
@[simp] theorem emptyOutput_lenHigh (s : State) : (emptyOutput s).lenHigh = s.lenHigh := rfl
@[simp] theorem emptyOutput_outLen (s : State) : (emptyOutput s).outLen = 0 := rfl
@[simp] theorem emptyOutput_rdPtr (s : State) : (emptyOutput s).rdPtr = 0 := rfl
@[simp] theorem emptyOutput_symLow (s : State) : (emptyOutput s).symLow = s.symLow := rfl
@[simp] theorem emptyOutput_symHigh (s : State) : (emptyOutput s).symHigh = s.symHigh := rfl
@[simp] theorem emptyOutput_out (s : State) : (emptyOutput s).out = s.out := rfl
@[simp] theorem emptyOutput_inflight (s : State) : (emptyOutput s).inflight = s.inflight := rfl
@[simp] theorem emptyOutput_params (s : State) : (emptyOutput s).params = s.params := rfl
@[simp] theorem emptyOutput_host (s : State) : (emptyOutput s).host = s.host := rfl
@[simp] theorem emptyOutput_turns (s : State) : (emptyOutput s).turns = s.turns := rfl
@[simp] theorem emptyOutput_reads (s : State) : (emptyOutput s).reads = s.reads := rfl
@[simp] theorem emptyOutput_draws (s : State) : (emptyOutput s).draws = s.draws := rfl

@[simp] theorem produce_cmdLast (n : Nat) (f : Nat → Byte) (s : State) : (produce n f s).cmdLast = s.cmdLast := rfl
@[simp] theorem produce_arg0 (n : Nat) (f : Nat → Byte) (s : State) : (produce n f s).arg0 = s.arg0 := rfl
@[simp] theorem produce_arg1 (n : Nat) (f : Nat → Byte) (s : State) : (produce n f s).arg1 = s.arg1 := rfl
@[simp] theorem produce_busy (n : Nat) (f : Nat → Byte) (s : State) : (produce n f s).busy = s.busy := rfl
@[simp] theorem produce_aerr (n : Nat) (f : Nat → Byte) (s : State) : (produce n f s).aerr = s.aerr := rfl
@[simp] theorem produce_rateValid (n : Nat) (f : Nat → Byte) (s : State) : (produce n f s).rateValid = s.rateValid := rfl
@[simp] theorem produce_symValid (n : Nat) (f : Nat → Byte) (s : State) : (produce n f s).symValid = s.symValid := rfl
@[simp] theorem produce_ecode (n : Nat) (f : Nat → Byte) (s : State) : (produce n f s).ecode = s.ecode := rfl
@[simp] theorem produce_sampleRate (n : Nat) (f : Nat → Byte) (s : State) : (produce n f s).sampleRate = s.sampleRate := rfl
@[simp] theorem produce_freqLow (n : Nat) (f : Nat → Byte) (s : State) : (produce n f s).freqLow = s.freqLow := rfl
@[simp] theorem produce_freqHigh (n : Nat) (f : Nat → Byte) (s : State) : (produce n f s).freqHigh = s.freqHigh := rfl
@[simp] theorem produce_lenLow (n : Nat) (f : Nat → Byte) (s : State) : (produce n f s).lenLow = s.lenLow := rfl
@[simp] theorem produce_lenHigh (n : Nat) (f : Nat → Byte) (s : State) : (produce n f s).lenHigh = s.lenHigh := rfl
@[simp] theorem produce_outLen (n : Nat) (f : Nat → Byte) (s : State) : (produce n f s).outLen = BitVec.ofNat 32 n := rfl
@[simp] theorem produce_rdPtr (n : Nat) (f : Nat → Byte) (s : State) : (produce n f s).rdPtr = 0 := rfl
@[simp] theorem produce_symLow (n : Nat) (f : Nat → Byte) (s : State) : (produce n f s).symLow = s.symLow := rfl
@[simp] theorem produce_symHigh (n : Nat) (f : Nat → Byte) (s : State) : (produce n f s).symHigh = s.symHigh := rfl
@[simp] theorem produce_out (n : Nat) (f : Nat → Byte) (s : State) : (produce n f s).out = Memory.fill [] n f := rfl
@[simp] theorem produce_inflight (n : Nat) (f : Nat → Byte) (s : State) : (produce n f s).inflight = s.inflight := rfl
@[simp] theorem produce_params (n : Nat) (f : Nat → Byte) (s : State) : (produce n f s).params = s.params := rfl
@[simp] theorem produce_host (n : Nat) (f : Nat → Byte) (s : State) : (produce n f s).host = s.host := rfl
@[simp] theorem produce_turns (n : Nat) (f : Nat → Byte) (s : State) : (produce n f s).turns = s.turns := rfl
@[simp] theorem produce_reads (n : Nat) (f : Nat → Byte) (s : State) : (produce n f s).reads = s.reads := rfl
@[simp] theorem produce_draws (n : Nat) (f : Nat → Byte) (s : State) : (produce n f s).draws = s.draws := rfl

@[simp] theorem accessError_cmdLast (s : State) : (accessError s).cmdLast = s.cmdLast := rfl
@[simp] theorem accessError_arg0 (s : State) : (accessError s).arg0 = s.arg0 := rfl
@[simp] theorem accessError_arg1 (s : State) : (accessError s).arg1 = s.arg1 := rfl
@[simp] theorem accessError_busy (s : State) : (accessError s).busy = s.busy := rfl
@[simp] theorem accessError_aerr (s : State) : (accessError s).aerr = true := rfl
@[simp] theorem accessError_rateValid (s : State) : (accessError s).rateValid = s.rateValid := rfl
@[simp] theorem accessError_symValid (s : State) : (accessError s).symValid = s.symValid := rfl
@[simp] theorem accessError_ecode (s : State) : (accessError s).ecode = s.ecode := rfl
@[simp] theorem accessError_sampleRate (s : State) : (accessError s).sampleRate = s.sampleRate := rfl
@[simp] theorem accessError_freqLow (s : State) : (accessError s).freqLow = s.freqLow := rfl
@[simp] theorem accessError_freqHigh (s : State) : (accessError s).freqHigh = s.freqHigh := rfl
@[simp] theorem accessError_lenLow (s : State) : (accessError s).lenLow = s.lenLow := rfl
@[simp] theorem accessError_lenHigh (s : State) : (accessError s).lenHigh = s.lenHigh := rfl
@[simp] theorem accessError_outLen (s : State) : (accessError s).outLen = s.outLen := rfl
@[simp] theorem accessError_rdPtr (s : State) : (accessError s).rdPtr = s.rdPtr := rfl
@[simp] theorem accessError_symLow (s : State) : (accessError s).symLow = s.symLow := rfl
@[simp] theorem accessError_symHigh (s : State) : (accessError s).symHigh = s.symHigh := rfl
@[simp] theorem accessError_out (s : State) : (accessError s).out = s.out := rfl
@[simp] theorem accessError_inflight (s : State) : (accessError s).inflight = s.inflight := rfl
@[simp] theorem accessError_params (s : State) : (accessError s).params = s.params := rfl
@[simp] theorem accessError_host (s : State) : (accessError s).host = s.host := rfl
@[simp] theorem accessError_turns (s : State) : (accessError s).turns = s.turns := rfl
@[simp] theorem accessError_reads (s : State) : (accessError s).reads = s.reads := rfl
@[simp] theorem accessError_draws (s : State) : (accessError s).draws = s.draws := rfl

@[simp] theorem observe_cmdLast (v : Word) (s : State) : (observe v s).cmdLast = s.cmdLast := rfl
@[simp] theorem observe_arg0 (v : Word) (s : State) : (observe v s).arg0 = s.arg0 := rfl
@[simp] theorem observe_arg1 (v : Word) (s : State) : (observe v s).arg1 = s.arg1 := rfl
@[simp] theorem observe_busy (v : Word) (s : State) : (observe v s).busy = s.busy := rfl
@[simp] theorem observe_aerr (v : Word) (s : State) : (observe v s).aerr = s.aerr := rfl
@[simp] theorem observe_rateValid (v : Word) (s : State) : (observe v s).rateValid = s.rateValid := rfl
@[simp] theorem observe_symValid (v : Word) (s : State) : (observe v s).symValid = s.symValid := rfl
@[simp] theorem observe_ecode (v : Word) (s : State) : (observe v s).ecode = s.ecode := rfl
@[simp] theorem observe_sampleRate (v : Word) (s : State) : (observe v s).sampleRate = s.sampleRate := rfl
@[simp] theorem observe_freqLow (v : Word) (s : State) : (observe v s).freqLow = s.freqLow := rfl
@[simp] theorem observe_freqHigh (v : Word) (s : State) : (observe v s).freqHigh = s.freqHigh := rfl
@[simp] theorem observe_lenLow (v : Word) (s : State) : (observe v s).lenLow = s.lenLow := rfl
@[simp] theorem observe_lenHigh (v : Word) (s : State) : (observe v s).lenHigh = s.lenHigh := rfl
@[simp] theorem observe_outLen (v : Word) (s : State) : (observe v s).outLen = s.outLen := rfl
@[simp] theorem observe_rdPtr (v : Word) (s : State) : (observe v s).rdPtr = s.rdPtr := rfl
@[simp] theorem observe_symLow (v : Word) (s : State) : (observe v s).symLow = s.symLow := rfl
@[simp] theorem observe_symHigh (v : Word) (s : State) : (observe v s).symHigh = s.symHigh := rfl
@[simp] theorem observe_out (v : Word) (s : State) : (observe v s).out = s.out := rfl
@[simp] theorem observe_inflight (v : Word) (s : State) : (observe v s).inflight = s.inflight := rfl
@[simp] theorem observe_params (v : Word) (s : State) : (observe v s).params = s.params := rfl
@[simp] theorem observe_host (v : Word) (s : State) : (observe v s).host = s.host := rfl
@[simp] theorem observe_turns (v : Word) (s : State) : (observe v s).turns = s.turns := rfl
@[simp] theorem observe_reads (v : Word) (s : State) : (observe v s).reads = v :: s.reads := rfl
@[simp] theorem observe_draws (v : Word) (s : State) : (observe v s).draws = s.draws := rfl

@[simp] theorem drawWord_cmdLast (s : State) : (drawWord s).2.cmdLast = s.cmdLast := rfl
@[simp] theorem drawWord_arg0 (s : State) : (drawWord s).2.arg0 = s.arg0 := rfl
@[simp] theorem drawWord_arg1 (s : State) : (drawWord s).2.arg1 = s.arg1 := rfl
@[simp] theorem drawWord_busy (s : State) : (drawWord s).2.busy = s.busy := rfl
@[simp] theorem drawWord_aerr (s : State) : (drawWord s).2.aerr = s.aerr := rfl
@[simp] theorem drawWord_rateValid (s : State) : (drawWord s).2.rateValid = s.rateValid := rfl
@[simp] theorem drawWord_symValid (s : State) : (drawWord s).2.symValid = s.symValid := rfl
@[simp] theorem drawWord_ecode (s : State) : (drawWord s).2.ecode = s.ecode := rfl
@[simp] theorem drawWord_sampleRate (s : State) : (drawWord s).2.sampleRate = s.sampleRate := rfl
@[simp] theorem drawWord_freqLow (s : State) : (drawWord s).2.freqLow = s.freqLow := rfl
@[simp] theorem drawWord_freqHigh (s : State) : (drawWord s).2.freqHigh = s.freqHigh := rfl
@[simp] theorem drawWord_lenLow (s : State) : (drawWord s).2.lenLow = s.lenLow := rfl
@[simp] theorem drawWord_lenHigh (s : State) : (drawWord s).2.lenHigh = s.lenHigh := rfl
@[simp] theorem drawWord_outLen (s : State) : (drawWord s).2.outLen = s.outLen := rfl
@[simp] theorem drawWord_rdPtr (s : State) : (drawWord s).2.rdPtr = s.rdPtr := rfl
@[simp] theorem drawWord_symLow (s : State) : (drawWord s).2.symLow = s.symLow := rfl
@[simp] theorem drawWord_symHigh (s : State) : (drawWord s).2.symHigh = s.symHigh := rfl
@[simp] theorem drawWord_out (s : State) : (drawWord s).2.out = s.out := rfl
@[simp] theorem drawWord_inflight (s : State) : (drawWord s).2.inflight = s.inflight := rfl
@[simp] theorem drawWord_params (s : State) : (drawWord s).2.params = s.params := rfl
@[simp] theorem drawWord_host (s : State) : (drawWord s).2.host = s.host := rfl
@[simp] theorem drawWord_turns (s : State) : (drawWord s).2.turns = s.turns := rfl
@[simp] theorem drawWord_reads (s : State) : (drawWord s).2.reads = s.reads := rfl
@[simp] theorem drawWord_draws (s : State) : (drawWord s).2.draws = s.draws + 1 := rfl

@[simp] theorem platformReset_cmdLast (s : State) : (platformReset s).cmdLast = 0 := rfl
@[simp] theorem platformReset_arg0 (s : State) : (platformReset s).arg0 = 0 := rfl
@[simp] theorem platformReset_arg1 (s : State) : (platformReset s).arg1 = 0 := rfl
@[simp] theorem platformReset_busy (s : State) : (platformReset s).busy = false := rfl
@[simp] theorem platformReset_aerr (s : State) : (platformReset s).aerr = false := rfl
@[simp] theorem platformReset_rateValid (s : State) : (platformReset s).rateValid = false := rfl
@[simp] theorem platformReset_symValid (s : State) : (platformReset s).symValid = false := rfl
@[simp] theorem platformReset_ecode (s : State) : (platformReset s).ecode = 0 := rfl
@[simp] theorem platformReset_sampleRate (s : State) : (platformReset s).sampleRate = 0 := rfl
@[simp] theorem platformReset_freqLow (s : State) : (platformReset s).freqLow = 0 := rfl
@[simp] theorem platformReset_freqHigh (s : State) : (platformReset s).freqHigh = 0 := rfl
@[simp] theorem platformReset_lenLow (s : State) : (platformReset s).lenLow = 0 := rfl
@[simp] theorem platformReset_lenHigh (s : State) : (platformReset s).lenHigh = 0 := rfl
@[simp] theorem platformReset_outLen (s : State) : (platformReset s).outLen = 0 := rfl
@[simp] theorem platformReset_rdPtr (s : State) : (platformReset s).rdPtr = 0 := rfl
@[simp] theorem platformReset_symLow (s : State) : (platformReset s).symLow = [] := rfl
@[simp] theorem platformReset_symHigh (s : State) : (platformReset s).symHigh = [] := rfl
@[simp] theorem platformReset_out (s : State) : (platformReset s).out = [] := rfl
@[simp] theorem platformReset_inflight (s : State) : (platformReset s).inflight = none := rfl
@[simp] theorem platformReset_params (s : State) : (platformReset s).params = s.params := rfl
@[simp] theorem platformReset_host (s : State) : (platformReset s).host = s.host := rfl
@[simp] theorem platformReset_turns (s : State) : (platformReset s).turns = s.turns := rfl
@[simp] theorem platformReset_reads (s : State) : (platformReset s).reads = s.reads := rfl
@[simp] theorem platformReset_draws (s : State) : (platformReset s).draws = s.draws := rfl

@[simp] theorem dropTurn_cmdLast (s : State) : (dropTurn s).cmdLast = s.cmdLast := rfl
@[simp] theorem dropTurn_arg0 (s : State) : (dropTurn s).arg0 = s.arg0 := rfl
@[simp] theorem dropTurn_arg1 (s : State) : (dropTurn s).arg1 = s.arg1 := rfl
@[simp] theorem dropTurn_busy (s : State) : (dropTurn s).busy = s.busy := rfl
@[simp] theorem dropTurn_aerr (s : State) : (dropTurn s).aerr = s.aerr := rfl
@[simp] theorem dropTurn_rateValid (s : State) : (dropTurn s).rateValid = s.rateValid := rfl
@[simp] theorem dropTurn_symValid (s : State) : (dropTurn s).symValid = s.symValid := rfl
@[simp] theorem dropTurn_ecode (s : State) : (dropTurn s).ecode = s.ecode := rfl
@[simp] theorem dropTurn_sampleRate (s : State) : (dropTurn s).sampleRate = s.sampleRate := rfl
@[simp] theorem dropTurn_freqLow (s : State) : (dropTurn s).freqLow = s.freqLow := rfl
@[simp] theorem dropTurn_freqHigh (s : State) : (dropTurn s).freqHigh = s.freqHigh := rfl
@[simp] theorem dropTurn_lenLow (s : State) : (dropTurn s).lenLow = s.lenLow := rfl
@[simp] theorem dropTurn_lenHigh (s : State) : (dropTurn s).lenHigh = s.lenHigh := rfl
@[simp] theorem dropTurn_outLen (s : State) : (dropTurn s).outLen = s.outLen := rfl
@[simp] theorem dropTurn_rdPtr (s : State) : (dropTurn s).rdPtr = s.rdPtr := rfl
@[simp] theorem dropTurn_symLow (s : State) : (dropTurn s).symLow = s.symLow := rfl
@[simp] theorem dropTurn_symHigh (s : State) : (dropTurn s).symHigh = s.symHigh := rfl
@[simp] theorem dropTurn_out (s : State) : (dropTurn s).out = s.out := rfl
@[simp] theorem dropTurn_inflight (s : State) : (dropTurn s).inflight = s.inflight := rfl
@[simp] theorem dropTurn_params (s : State) : (dropTurn s).params = s.params := rfl
@[simp] theorem dropTurn_host (s : State) : (dropTurn s).host = s.host := rfl
@[simp] theorem dropTurn_turns (s : State) : (dropTurn s).turns = s.turns.tail := rfl
@[simp] theorem dropTurn_reads (s : State) : (dropTurn s).reads = s.reads := rfl
@[simp] theorem dropTurn_draws (s : State) : (dropTurn s).draws = s.draws := rfl

@[simp] theorem placeCommand_cmdLast (v : Word) (s : State) : (placeCommand v s).cmdLast = v := rfl
@[simp] theorem placeCommand_arg0 (v : Word) (s : State) : (placeCommand v s).arg0 = s.arg0 := rfl
@[simp] theorem placeCommand_arg1 (v : Word) (s : State) : (placeCommand v s).arg1 = s.arg1 := rfl
@[simp] theorem placeCommand_busy (v : Word) (s : State) : (placeCommand v s).busy = true := rfl
@[simp] theorem placeCommand_aerr (v : Word) (s : State) : (placeCommand v s).aerr = s.aerr := rfl
@[simp] theorem placeCommand_rateValid (v : Word) (s : State) : (placeCommand v s).rateValid = s.rateValid := rfl
@[simp] theorem placeCommand_symValid (v : Word) (s : State) : (placeCommand v s).symValid = s.symValid := rfl
@[simp] theorem placeCommand_ecode (v : Word) (s : State) : (placeCommand v s).ecode = 0 := rfl
@[simp] theorem placeCommand_sampleRate (v : Word) (s : State) : (placeCommand v s).sampleRate = s.sampleRate := rfl
@[simp] theorem placeCommand_freqLow (v : Word) (s : State) : (placeCommand v s).freqLow = s.freqLow := rfl
@[simp] theorem placeCommand_freqHigh (v : Word) (s : State) : (placeCommand v s).freqHigh = s.freqHigh := rfl
@[simp] theorem placeCommand_lenLow (v : Word) (s : State) : (placeCommand v s).lenLow = s.lenLow := rfl
@[simp] theorem placeCommand_lenHigh (v : Word) (s : State) : (placeCommand v s).lenHigh = s.lenHigh := rfl
@[simp] theorem placeCommand_outLen (v : Word) (s : State) : (placeCommand v s).outLen = s.outLen := rfl
@[simp] theorem placeCommand_rdPtr (v : Word) (s : State) : (placeCommand v s).rdPtr = s.rdPtr := rfl
@[simp] theorem placeCommand_symLow (v : Word) (s : State) : (placeCommand v s).symLow = s.symLow := rfl
@[simp] theorem placeCommand_symHigh (v : Word) (s : State) : (placeCommand v s).symHigh = s.symHigh := rfl
@[simp] theorem placeCommand_out (v : Word) (s : State) : (placeCommand v s).out = s.out := rfl
@[simp] theorem placeCommand_inflight (v : Word) (s : State) : (placeCommand v s).inflight = some ⟨v, s.arg0, s.arg1⟩ := rfl
@[simp] theorem placeCommand_params (v : Word) (s : State) : (placeCommand v s).params = s.params := rfl
@[simp] theorem placeCommand_host (v : Word) (s : State) : (placeCommand v s).host = s.host := rfl
@[simp] theorem placeCommand_turns (v : Word) (s : State) : (placeCommand v s).turns = .block :: s.turns := rfl
@[simp] theorem placeCommand_reads (v : Word) (s : State) : (placeCommand v s).reads = s.reads := rfl
@[simp] theorem placeCommand_draws (v : Word) (s : State) : (placeCommand v s).draws = s.draws := rfl

@[simp] theorem initial_cmdLast (p : Params) : (State.initial p).cmdLast = 0 := rfl
@[simp] theorem initial_arg0 (p : Params) : (State.initial p).arg0 = 0 := rfl
@[simp] theorem initial_arg1 (p : Params) : (State.initial p).arg1 = 0 := rfl
@[simp] theorem initial_busy (p : Params) : (State.initial p).busy = false := rfl
@[simp] theorem initial_aerr (p : Params) : (State.initial p).aerr = false := rfl
@[simp] theorem initial_rateValid (p : Params) : (State.initial p).rateValid = false := rfl
@[simp] theorem initial_symValid (p : Params) : (State.initial p).symValid = false := rfl
@[simp] theorem initial_ecode (p : Params) : (State.initial p).ecode = 0 := rfl
@[simp] theorem initial_sampleRate (p : Params) : (State.initial p).sampleRate = 0 := rfl
@[simp] theorem initial_freqLow (p : Params) : (State.initial p).freqLow = 0 := rfl
@[simp] theorem initial_freqHigh (p : Params) : (State.initial p).freqHigh = 0 := rfl
@[simp] theorem initial_lenLow (p : Params) : (State.initial p).lenLow = 0 := rfl
@[simp] theorem initial_lenHigh (p : Params) : (State.initial p).lenHigh = 0 := rfl
@[simp] theorem initial_outLen (p : Params) : (State.initial p).outLen = 0 := rfl
@[simp] theorem initial_rdPtr (p : Params) : (State.initial p).rdPtr = 0 := rfl
@[simp] theorem initial_symLow (p : Params) : (State.initial p).symLow = [] := rfl
@[simp] theorem initial_symHigh (p : Params) : (State.initial p).symHigh = [] := rfl
@[simp] theorem initial_out (p : Params) : (State.initial p).out = [] := rfl
@[simp] theorem initial_inflight (p : Params) : (State.initial p).inflight = none := rfl
@[simp] theorem initial_params (p : Params) : (State.initial p).params = p := rfl
@[simp] theorem initial_host (p : Params) : (State.initial p).host = [] := rfl
@[simp] theorem initial_turns (p : Params) : (State.initial p).turns = [] := rfl
@[simp] theorem initial_reads (p : Params) : (State.initial p).reads = [] := rfl
@[simp] theorem initial_draws (p : Params) : (State.initial p).draws = 0 := rfl

end Sys2Proof.Machine
end

