-- ==== Sys2Proof/Laws/Effects.lean ====
section
/-! SUPPORT. Said once: everything a host access can do to the block, everything a completion step can do, and
everything a step can do. Later proofs take these cases instead of unfolding the operations. -/

namespace Sys2Proof.Machine

/-- What one host access does to the block, apart from the value it returns. -/
inductive HostEffect (s : State) : State → Prop
  | nothing : HostEffect s s
  | refused : HostEffect s (accessError s)
  | issued (v : Word) (h : s.busy = false) : HostEffect s (issue v s)
  | arg0 (v : Word) (h : s.busy = false) : HostEffect s { s with arg0 := v }
  | arg1 (v : Word) (h : s.busy = false) : HostEffect s { s with arg1 := v }
  | cleared (h : s.busy = false) : HostEffect s { s with aerr := false }
  | moved (v : Word) (h : s.busy = false) (hv : u32 v ≤ u32 s.outLen) : HostEffect s { s with rdPtr := v }
  | advanced (h : s.busy = false) (hlt : u32 s.rdPtr < u32 s.outLen) : HostEffect s { s with rdPtr := s.rdPtr + 1 }

theorem Reg.at?_off (r : Reg) : Reg.at? r.off = some r := by
  cases r <;> rfl

theorem badShape_off (r : Reg) : badShape r.off 4 = false := by
  cases r <;> rfl

theorem writeReg_cases (v : Word) (s : State) (r : Reg) (h : s.busy = false) : HostEffect s (writeReg v s r) := by
  cases r
  case cmd => exact .issued v h
  case arg0 => exact .arg0 v h
  case arg1 => exact .arg1 v h
  case status =>
    rw [writeReg, writeStatus]
    split
    · exact .cleared h
    · exact .nothing
  case rdPtr =>
    rw [writeReg, writeRdPtr]
    split
    · exact .moved v h ‹_›
    · exact .refused
  all_goals exact .refused

theorem writeWindow_cases (off n : Nat) (v : Word) (s : State) : HostEffect s (writeWindow off n v s) := by
  rw [writeWindow]
  split
  · exact .refused
  · split
    · exact .refused
    · split
      · exact writeReg_cases v s _ (by simpa using ‹¬ s.busy = true›)
      · exact .refused

theorem readReg_cases (s : State) (r : Reg) :
    (r ≠ .outData ∧ (readReg s r).2 = s) ∨ (r = .outData ∧ readReg s r = readOutData s) := by
  cases r
  case outData => exact .inr ⟨rfl, rfl⟩
  all_goals exact .inl ⟨by decide, rfl⟩

/-- A read changes the block as one host access does, and counts the free value it may have drawn. -/
theorem readWindow_cases (off n : Nat) (s : State) :
    ∃ t d, HostEffect s t ∧ (readWindow off n s).2 = { t with draws := d } := by
  rw [readWindow]
  split
  · exact ⟨_, s.draws, .refused, rfl⟩
  · split
    · exact ⟨_, s.draws + 1, .refused, rfl⟩
    · rename_i hb
      split
      · rename_i r hr
        rcases readReg_cases s r with ⟨_, h⟩ | ⟨rfl, h⟩
        · exact ⟨_, s.draws, .nothing, h⟩
        · have hbusy : s.busy = false := by
            by_contra hc
            have hoff : off = Reg.status.off := by
              simpa [Bool.eq_true_of_not_eq_false hc] using hb
            rw [hoff, Reg.at?_off] at hr
            cases hr
          rw [h, readOutData]
          split
          · exact ⟨_, s.draws, .advanced hbusy ‹_›, rfl⟩
          · exact ⟨_, s.draws, .refused, rfl⟩
      · exact ⟨_, s.draws, .refused, rfl⟩

/-- **One host access**: an effect on the block, the value it returned, the free values it drew. -/
theorem performAccess_cases (a : Access) (s : State) :
    ∃ t r d, HostEffect s t ∧ performAccess a s = { t with reads := r, draws := d } := by
  rw [performAccess]
  split
  · split
    · obtain ⟨t, d, ht, e⟩ := readWindow_cases (a.addr - s.params.blockBase) a.n s
      exact ⟨t, _, d, ht, by rw [observe, e]⟩
    · exact ⟨s, _, s.draws + 1, .nothing, rfl⟩
  · split
    · have h := writeWindow_cases (a.addr - s.params.blockBase) a.n a.v s
      refine ⟨_, (writeWindow (a.addr - s.params.blockBase) a.n a.v s).reads,
        (writeWindow (a.addr - s.params.blockBase) a.n a.v s).draws, h, rfl⟩
    · exact ⟨s, s.reads, s.draws, .nothing, rfl⟩

/-- **The host's turn**: an access effect on the block, and a host that may have moved on. -/
theorem hostStep_cases (s : State) :
    ∃ t p r d, HostEffect s t ∧ hostStep s = { t with host := p, reads := r, draws := d } := by
  rw [hostStep]
  split
  · exact ⟨s, s.host, s.reads, s.draws, .nothing, rfl⟩
  · rename_i a rest _
    obtain ⟨t, r, d, h, e⟩ := performAccess_cases a { s with host := rest }
    have key : ∃ u, HostEffect s u ∧ t = { u with host := rest } := by
      cases h with
      | nothing => exact ⟨_, .nothing, rfl⟩
      | refused => exact ⟨_, .refused, rfl⟩
      | issued v h => exact ⟨_, .issued v h, rfl⟩
      | arg0 v h => exact ⟨_, .arg0 v h, rfl⟩
      | arg1 v h => exact ⟨_, .arg1 v h, rfl⟩
      | cleared h => exact ⟨_, .cleared h, rfl⟩
      | moved v h hv => exact ⟨_, .moved v h hv, rfl⟩
      | advanced h hlt => exact ⟨_, .advanced h hlt, rfl⟩
    obtain ⟨u, hu, rfl⟩ := key
    exact ⟨u, rest, r, d, hu, e⟩
  · rename_i rest _
    have e : (readWindow Reg.status.off 4 s).2 = s := by
      rw [readWindow, badShape_off, Reg.at?_off]
      simp only [ne_eq, not_true_eq_false, decide_false, Bool.and_false, Bool.false_eq_true, if_false]
      rfl
    rw [pollStatus, e]
    split
    · exact ⟨s, s.host, _, s.draws, .nothing, rfl⟩
    · exact ⟨s, rest, _, s.draws, .nothing, rfl⟩

/-- The effects of a command that passes its checks. -/
def effectOf : Instr → Inflight → State → State
  | .cfgRate, q, s => cfgRateEffect q s
  | .wave, q, s => waveEffect q s
  | .cfgFsk, q, s => cfgFskEffect q s
  | .encodeBit, q, s => encodeBitEffect q s

/-- The code its checks give a command. -/
def codeOf : Instr → Inflight → State → Code
  | .cfgRate, q, _ => cfgRateCode q
  | .wave, q, s => waveCode q s
  | .cfgFsk, q, s => cfgFskCode q s
  | .encodeBit, q, s => encodeBitCode q s

/-- **A command in flight completes**: with its effects when every check passes, with its code alone otherwise. -/
theorem exec_eq (i : Instr) {s : State} {q : Inflight} (h : s.inflight = some q) :
    exec i s = .next (finish (codeOf i q s) (effectOf i q s) s) := by
  cases i <;>
    simp only [exec, execCfgRate, execWave, execCfgFsk, execEncodeBit, complete, h, codeOf, effectOf]

theorem Code.bits_eq_zero {c : Code} : c.bits = 0 ↔ c = .ok := by
  cases c <;> simp [Code.bits]

theorem finish_ok {c : Code} (h : c = .ok) (e s : State) : finish c e s = finishOk e := by
  rw [finish, if_pos h]

theorem finish_error {c : Code} (h : c ≠ .ok) (e s : State) : finish c e s = cmdError c s := by
  rw [finish, if_neg h]

/-- **The completion step**: nothing in flight, an illegal word, or a command. -/
theorem completionStep_cases (s : State) :
    (s.inflight = none ∧ completionStep s = .next s) ∨
    (∃ q e, s.inflight = some q ∧ decodeWord q.c = .rejected e ∧
      completionStep s = .next (cmdError .illegalCmd s)) ∨
    (∃ q i, s.inflight = some q ∧ decodeWord q.c = .ok i ∧
      completionStep s = .next (finish (codeOf i q s) (effectOf i q s) s)) := by
  rcases h : s.inflight with _ | q
  · exact .inl ⟨rfl, by simp only [completionStep, h]⟩
  · rcases hd : decodeWord q.c with i | e
    · exact .inr (.inr ⟨q, i, rfl, hd, by simp only [completionStep, h, hd, exec_eq i h]⟩)
    · exact .inr (.inl ⟨q, e, rfl, hd, by simp only [completionStep, h, hd]⟩)

/-- **A step**: the host's turn, a completion, a reset; a second master is refused. -/
theorem step_cases {s t : State} (h : step s = .next t) :
    t = hostStep (dropTurn s) ∨ completionStep (dropTurn s) = .next t ∨ t = platformReset (dropTurn s) := by
  rw [step] at h
  rcases hn : nextTurn s with _ | _ | _ | a <;> rw [hn, takeTurn] at h
  · exact .inl (by cases h; rfl)
  · exact .inr (.inl h)
  · exact .inr (.inr (by cases h; rfl))
  · cases h

end Sys2Proof.Machine
end

