-- ==== Sys2Proof/Laws/Access.lean ====
section
/-! SUPPORT. What a read and a write of this block's own window come to: the rule of the register at the offset,
the refusal of R174 while BUSY = 1, the refusal of R175 for a bad shape. -/

namespace Sys2Proof.Machine

theorem inWindow_off (p : Params) {off : Nat} (h : off < 0x40) : inWindow p (p.blockBase + off) = true := by
  rw [inWindow, decide_eq_true (by omega), decide_eq_true (by omega)]
  rfl

theorem readAt_eq (s : State) {off : Nat} (n : Nat) (h : off < 0x40) :
    readAt s off n = observe (readWindow off n s).1 (readWindow off n s).2 := by
  rw [readAt, performAccess]
  simp only [inWindow_off s.params h, if_true, Nat.add_sub_cancel_left]

theorem writeAt_eq (s : State) {off : Nat} (n : Nat) (v : Word) (h : off < 0x40) :
    writeAt s off n v = writeWindow off n v s := by
  rw [writeAt, performAccess]
  simp only [inWindow_off s.params h, if_true, Nat.add_sub_cancel_left]

theorem Reg.off_lt (r : Reg) : r.off < 0x40 := by
  cases r <;> decide

theorem writeWindow_reg {s : State} (h : s.busy = false) (v : Word) (r : Reg) :
    writeWindow r.off 4 v s = writeReg v s r := by
  rw [writeWindow, badShape_off, h, Reg.at?_off]
  rfl

theorem readWindow_reg {s : State} (h : s.busy = false) (r : Reg) : readWindow r.off 4 s = readReg s r := by
  rw [readWindow, badShape_off, h, Reg.at?_off]
  rfl

/-- A read of a register while BUSY = 0 (R160). -/
theorem readAt_reg {s : State} (h : s.busy = false) (r : Reg) :
    readAt s r.off 4 = observe (readReg s r).1 (readReg s r).2 := by
  rw [readAt_eq s 4 (Reg.off_lt r), readWindow_reg h]

/-- A write of a register while BUSY = 0 (R160). -/
theorem writeAt_reg {s : State} (h : s.busy = false) (v : Word) (r : Reg) :
    writeAt s r.off 4 v = writeReg v s r := by
  rw [writeAt_eq s 4 v (Reg.off_lt r), writeWindow_reg h]

/-- A STATUS read, at any time (R165). -/
theorem readWindow_status (s : State) : readWindow Reg.status.off 4 s = (statusWord s, s) := by
  rw [readWindow, badShape_off, Reg.at?_off]
  simp only [ne_eq, not_true_eq_false, decide_false, Bool.and_false, Bool.false_eq_true, if_false, readReg]

/-- Any write while BUSY = 1 (R174, R175). -/
theorem writeWindow_busy {s : State} (h : s.busy = true) (off n : Nat) (v : Word) :
    writeWindow off n v s = accessError s := by
  rw [writeWindow, h, if_pos rfl, ite_self]

end Sys2Proof.Machine
end

