-- ==== Sys2Proof/Laws/Memory.lean ====
section
/-! SUPPORT. The sample arrays: what a fill lets one read, that it keeps the canonical form, and its bounds. -/

namespace Sys2Proof.Machine

theorem Memory.mem_run {f : Nat → Byte} {c : Host.Cell} :
    ∀ {n start : Nat}, c ∈ Memory.run f start n → start ≤ c.1 ∧ c.1 < start + n
  | 0, _, h => by simp [Memory.run] at h
  | n + 1, start, h => by
    rcases List.mem_cons.mp h with rfl | h
    · exact ⟨Nat.le_refl _, by omega⟩
    · have := Memory.mem_run h
      omega

theorem Memory.wf_run (f : Nat → Byte) : ∀ (n start : Nat), (Memory.run f start n).wf
  | 0, _ => List.Pairwise.nil
  | n + 1, start =>
    List.Pairwise.cons (fun _ h => by have := Memory.mem_run h; simp only; omega) (Memory.wf_run f n (start + 1))

/-- A fill keeps the canonical form. -/
theorem Memory.wf_fill {m : Memory} (h : m.wf) (n : Nat) (f : Nat → Byte) : (m.fill n f).wf := by
  refine List.pairwise_append.mpr ⟨Memory.wf_run f n 0, h.filter _, fun x hx y hy => ?_⟩
  have := Memory.mem_run hx
  have := (List.mem_filter.mp hy).2
  simp only [decide_eq_true_eq] at this
  omega

theorem Memory.bounded_fill {m : Memory} {cap n : Nat} (h : ∀ c ∈ m, c.1 < cap) (hn : n ≤ cap) (f : Nat → Byte) :
    ∀ c ∈ m.fill n f, c.1 < cap := by
  intro c hc
  rcases List.mem_append.mp hc with hc | hc
  · have := Memory.mem_run hc
    omega
  · exact h c (List.mem_filter.mp hc).1

theorem Memory.read_run_append (f : Nat → Byte) (m : Memory) (i : Nat) :
    ∀ (n start : Nat), Memory.read (Memory.run f start n ++ m) i =
      if start ≤ i ∧ i < start + n then some (f i) else Memory.read m i
  | 0, start => by
    rw [if_neg (by omega)]
    rfl
  | n + 1, start => by
    rw [Memory.run, List.cons_append, Memory.read]
    by_cases h : start = i
    · rw [if_pos h, if_pos (by omega), h]
    · rw [if_neg h, Memory.read_run_append f m i n (start + 1)]
      by_cases h' : start ≤ i ∧ i < start + (n + 1)
      · rw [if_pos h', if_pos (by omega)]
      · rw [if_neg h', if_neg (by omega)]

theorem Memory.read_filter (m : Memory) {n i : Nat} (h : n ≤ i) :
    Memory.read (m.filter (fun c => decide (n ≤ c.1))) i = Memory.read m i := by
  induction m with
  | nil => rfl
  | cons c m ih =>
    by_cases hc : n ≤ c.1
    · rw [List.filter_cons_of_pos (by simpa using hc), Memory.read, Memory.read, ih]
    · rw [List.filter_cons_of_neg (by simpa using hc), ih, Memory.read, if_neg (by omega)]

/-- **Read after fill**: the filled entries hold what was filled in, every other entry what it held. -/
theorem Memory.read_fill (m : Memory) (n : Nat) (f : Nat → Byte) (i : Nat) :
    Memory.read (m.fill n f) i = if i < n then some (f i) else Memory.read m i := by
  rw [Memory.fill, Memory.read_run_append]
  by_cases h : i < n
  · rw [if_pos h, if_pos (by omega)]
  · rw [if_neg h, if_neg (by omega), Memory.read_filter m (by omega)]

theorem sampleAt_of_read {a : SampleArray} {m : Memory} {i : Nat} {b : Byte} (h : Memory.read m i = some b) :
    sampleAt a m i = b := by
  rw [sampleAt, h]

theorem sampleAt_fill (a : SampleArray) (m : Memory) {n : Nat} (f : Nat → Byte) {i : Nat} (h : i < n) :
    sampleAt a (m.fill n f) i = f i :=
  sampleAt_of_read (by rw [Memory.read_fill, if_pos h])

end Sys2Proof.Machine
end

