-- ==== Sys2Proof/Laws/Operands.lean ====
section
/-! SUPPORT. Operands as integers: `s32` is the vector's own two's-complement reading, and the checks of the
commands as statements about integers. -/

namespace Sys2Proof.Machine

theorem s32_eq_toInt (v : Word) : s32 v = v.toInt := by
  have h : v.getLsbD 31 = decide (2 ^ 31 ≤ v.toNat) := by
    rw [BitVec.getLsbD, Nat.testBit_eq_decide_div_mod_eq]
    have := v.isLt
    simp only [decide_eq_decide]
    omega
  rw [s32, h, BitVec.toInt_eq_toNat_cond]
  have := v.isLt
  by_cases hv : 2 ^ 31 ≤ v.toNat
  · rw [decide_eq_true hv, if_pos rfl, if_neg (by omega)]; omega
  · rw [decide_eq_false hv, if_neg (by decide), if_pos (by omega)]; omega

theorem s32_injective {v w : Word} (h : s32 v = s32 w) : v = w := by
  rw [s32_eq_toInt, s32_eq_toInt] at h
  exact BitVec.eq_of_toInt_eq h

theorem nonPositive_eq (v : Word) : nonPositive v = decide (s32 v ≤ 0) := rfl

theorem belowNyquist_eq (r f : Word) : belowNyquist r f = decide ((u32 r : Int) < 4 * s32 f) := rfl

/-- A positive operand is the same number signed and unsigned. -/
theorem u32_of_pos {v : Word} (h : 0 < s32 v) : (u32 v : Int) = s32 v := by
  rw [s32_eq_toInt] at h ⊢
  rw [BitVec.toInt_eq_toNat_cond] at h ⊢
  have := v.isLt
  split at h
  · rw [if_pos (by assumption)]; rfl
  · omega

theorem magnitude_of_pos {v : Word} (h : 0 < s32 v) : magnitude v = u32 v := by
  have := u32_of_pos h
  rw [magnitude]
  omega

theorem u32_lt_of_pos {v : Word} (h : 0 < s32 v) : u32 v ≤ 2 ^ 31 - 1 := by
  have hu := u32_of_pos h
  rw [s32_eq_toInt] at hu
  have := v.toInt_lt
  simp only [u32] at *
  omega

theorem u32_ofNat {n : Nat} (h : n < 2 ^ 32) : u32 (BitVec.ofNat 32 n) = n := by
  rw [u32, BitVec.toNat_ofNat, Nat.mod_eq_of_lt h]

/-- Above the Nyquist floor a cycle has at least four samples (R104, R109). -/
theorem four_le_samplesPerCycle {r f : Word} (hf : 0 < s32 f) (h : belowNyquist r f = false) :
    4 ≤ samplesPerCycle r f := by
  have hu := u32_of_pos hf
  rw [belowNyquist, decide_eq_false_iff_not] at h
  rw [samplesPerCycle, magnitude_of_pos hf, Nat.le_div_iff_mul_le (by omega)]
  omega

end Sys2Proof.Machine
end

