-- ==== Sys2Proof/Laws/Commands.lean ====
section
/-! SUPPORT. When each command passes its checks (R195), and what its effects come to. -/

namespace Sys2Proof.Machine

theorem cfgRateCode_ok {q : Inflight} : cfgRateCode q = .ok ↔ 0 < s32 q.a0 := by
  unfold cfgRateCode nonPositive
  split_ifs with h <;> simp_all

theorem waveCode_ok {q : Inflight} {s : State} : waveCode q s = .ok ↔
    s.rateValid = true ∧ 0 < s32 q.a0 ∧ belowNyquist s.sampleRate q.a0 = false ∧ 0 < s32 q.a1 ∧
      samplesPerCycle s.sampleRate q.a0 ≤ s.params.symCap ∧
      samplesPerCycle s.sampleRate q.a0 * magnitude q.a1 ≤ s.params.outCap := by
  unfold waveCode nonPositive
  split_ifs <;> simp_all

theorem cfgFskCode_ok {q : Inflight} {s : State} : cfgFskCode q s = .ok ↔
    s.rateValid = true ∧ 0 < s32 q.a0 ∧ 0 < s32 q.a1 ∧ q.a0 ≠ q.a1 ∧
      belowNyquist s.sampleRate q.a0 = false ∧ belowNyquist s.sampleRate q.a1 = false ∧
      samplesPerCycle s.sampleRate q.a0 ≤ s.params.symCap ∧
      samplesPerCycle s.sampleRate q.a1 ≤ s.params.symCap := by
  unfold cfgFskCode nonPositive
  split_ifs <;> simp_all <;> grind

theorem encodeBitCode_ok {q : Inflight} {s : State} : encodeBitCode q s = .ok ↔
    s.symValid = true ∧ (s32 q.a0 = 0 ∨ s32 q.a0 = 1) ∧ 0 < s32 q.a1 ∧
      symbolLen q.a0 s * magnitude q.a1 ≤ s.params.outCap := by
  unfold encodeBitCode nonPositive
  split_ifs <;> simp_all
  omega

/-- The output a producing command leaves: the given samples, the cursor at the start (R43, R37, R38). -/
theorem produce_spec (s : State) {len : Nat} (f : Nat → Byte) (h : len < 2 ^ 32) :
    u32 (produce len f s).outLen = len ∧ (produce len f s).rdPtr = 0 ∧ (produce len f s).out.wf ∧
      ∀ k, k < len → Memory.read (produce len f s).out k = some (f k) :=
  ⟨u32_ofNat h, rfl, Memory.wf_fill List.Pairwise.nil len f, fun k hk => by
    rw [produce, Memory.read_fill, if_pos hk]⟩

/-- A completion ends the command whichever way (R190, R191). -/
theorem finish_ends (c : Code) {e s : State} : (finish c e s).inflight = none ∧ (finish c e s).busy = false := by
  rw [finish]
  split <;> exact ⟨rfl, rfl⟩

end Sys2Proof.Machine
end

