-- ==== Sys2Proof/Laws/Decode.lean ====
section
/-! SUPPORT. Words and their parts: a word is its fields, its bytes, and its own table word. -/

namespace Sys2Proof

/-- A command word is its RSVD and OPCODE fields (R80). -/
theorem word_eq_fields (w : Word) : w = rsvdField w ++ opcodeField w := by
  apply BitVec.eq_of_getLsbD_eq
  intro k hk
  rw [BitVec.getLsbD_append, rsvdField, opcodeField]
  split
  · rw [BitVec.getLsbD_extractLsb']
    simp_all
  · rw [BitVec.getLsbD_extractLsb', decide_eq_true (by omega : k - 8 < 24), Bool.true_and]
    congr 1
    omega

/-- Four bytes hold their word again (R62). -/
theorem wordOfBytes_bytesOfWord (w : Word) (rest : List Byte) :
    wordOfBytes (bytesOfWord w ++ rest) = some (w, rest) := by
  have h : (w.extractLsb' 24 8 ++ w.extractLsb' 16 8 ++ w.extractLsb' 8 8 ++ w.extractLsb' 0 8 : Word) = w := by
    apply BitVec.eq_of_getLsbD_eq
    intro k hk
    rw [BitVec.getLsbD_append, BitVec.getLsbD_append, BitVec.getLsbD_append]
    split
    · rw [BitVec.getLsbD_extractLsb']
      simp_all
    · split
      · rw [BitVec.getLsbD_extractLsb', decide_eq_true (by omega : k - 8 < 8), Bool.true_and]
        congr 1
        omega
      · split
        · rw [BitVec.getLsbD_extractLsb', decide_eq_true (by omega : k - 8 - 8 < 8), Bool.true_and]
          congr 1
          omega
        · rw [BitVec.getLsbD_extractLsb', decide_eq_true (by omega : k - 8 - 8 - 8 < 8), Bool.true_and]
          congr 1
          omega
  simp only [bytesOfWord, List.cons_append, List.nil_append, wordOfBytes, h]

/-- The table word of a word's own number is the word. -/
theorem tableWord_toNat (w : Word) : tableWord 32 w.toNat = w := by
  rw [tableWord, Nat.mod_eq_of_lt w.isLt, BitVec.ofNat_toNat, BitVec.setWidth_eq]

end Sys2Proof
end

