-- ==== Sys2Proof/Laws/PerInstr.lean ====
section
/-! SUPPORT. Statements made of every command as syntax, one lemma per constructor of Instr. -/

namespace Sys2Proof.Laws

/-- A command's word has RSVD = 0 and the opcode of its row of R82, and decodes to the command. -/
def Encoding.Statement (i : Instr) : Prop :=
  rsvdField (encode i) = 0 ∧ decodeOpcode (opcodeField (encode i)) = .ok i ∧ decodeWord (encode i) = .ok i

theorem Encoding.cfgRate : Encoding.Statement .cfgRate := by unfold Encoding.Statement; decide
theorem Encoding.wave : Encoding.Statement .wave := by unfold Encoding.Statement; decide
theorem Encoding.cfgFsk : Encoding.Statement .cfgFsk := by unfold Encoding.Statement; decide
theorem Encoding.encodeBit : Encoding.Statement .encodeBit := by unfold Encoding.Statement; decide

end Sys2Proof.Laws
end

