-- ==== Sys2Proof/Laws/Run.lean ====
section
/-! SUPPORT. Runs of the machine, one step at a time, and whose turn it is. -/

namespace Sys2Proof.Machine

theorem run_zero (s : State) : Host.Core.run core 0 s = .next s := rfl

theorem run_succ (k : Nat) {s t : State} (h : step s = .next t) :
    Host.Core.run core (k + 1) s = Host.Core.run core k t := by
  have e : core.step s = .next t := h
  simp only [Host.Core.run, e]

/-- A run that goes on has gone through its first step. -/
theorem run_succ_next {k : Nat} {s u : State} (h : Host.Core.run core (k + 1) s = .next u) :
    ∃ t, step s = .next t ∧ Host.Core.run core k t = .next u := by
  rcases hs : step s with t | r | r
  · exact ⟨t, rfl, run_succ k hs ▸ h⟩
  · have e : core.step s = .fault r := hs
    simp [Host.Core.run, e] at h
  · have e : core.step s = .refused r := hs
    simp [Host.Core.run, e] at h

theorem nextTurn_of_head {s : State} {t : Turn} (h : s.turns.head? = some t) : nextTurn s = t := by
  rw [nextTurn]
  rcases ht : s.turns with _ | ⟨a, b⟩ <;> rw [ht] at h
  · cases h
  · exact Option.some.inj h

theorem nextTurn_of_nil {s : State} (h : s.turns = []) :
    nextTurn s = if s.inflight.isSome then .block else .host := by
  rw [nextTurn, h]

end Sys2Proof.Machine
end

