-- ==== Sys2Proof/Laws/Sample.lean ====
section
/-! SUPPORT. Bounds of the sample function and where an angle stands in its quarter turn. -/

namespace Sys2Proof.Machine

theorem levelsReached_le (x n : Nat) : ∀ ts : List (Nat × Nat), levelsReached ts x n ≤ ts.length
  | [] => Nat.le_refl 0
  | t :: ts => by
    rw [levelsReached]
    split
    · exact Nat.succ_le_succ (levelsReached_le x n ts)
    · exact Nat.zero_le _

theorem thresholds_length : thresholds.length = 127 := by decide +kernel

theorem level_le (x n : Nat) : level x n ≤ 127 := by
  have := levelsReached_le x n thresholds
  rwa [thresholds_length] at this

theorem halfTurn_lt {i N : Nat} (h : i < N) : halfTurn i N < N := by
  rw [halfTurn]
  split <;> omega

theorem quarterTurn_le {i N : Nat} (h : i < N) : 2 * quarterTurn i N ≤ N := by
  have := halfTurn_lt h
  rw [quarterTurn]
  split <;> omega

end Sys2Proof.Machine
end

