-- ==== Sys2Proof/Laws/SineThresholds.lean ====
section
/-! SUPPORT. The thresholds of Machine/Sample.lean are right: `level x n` is the floor of `127 sin(πx/n)` for every
`n < 2^32` and `0 ≤ x/n ≤ 1/2`. Each row is bracketed by its Farey neighbour below: no fraction with a denominator
under 2^32 lies between the two, and the sine is on either side of k/127 at them, by a Taylor bound that the
kernel evaluates on integers. -/

namespace Sys2Proof.Laws.Sine

open Real

/-- The positive terms of `31! v^31 · T(u/v)`, T the Taylor polynomial of sin of degree 31. -/
def taylorPos (u v : ℕ) : ℕ :=
  8222838654177922817725562880000000 * u ^ 1 * v ^ 30 +
    68523655451482690147713024000000 * u ^ 5 * v ^ 26 +
    22659938972051154149376000000 * u ^ 9 * v ^ 22 +
    1320509264105545113600000 * u ^ 13 * v ^ 18 +
    23118159385601280000 * u ^ 17 * v ^ 14 +
    160945136352000 * u ^ 21 * v ^ 10 +
    530122320 * u ^ 25 * v ^ 6 +
    930 * u ^ 29 * v ^ 2

/-- The negative terms of `31! v^31 · T(u/v)`. -/
def taylorNeg (u v : ℕ) : ℕ :=
  1370473109029653802954260480000000 * u ^ 3 * v ^ 28 +
    1631515605987683098755072000000 * u ^ 7 * v ^ 24 +
    205999445200465037721600000 * u ^ 11 * v ^ 20 +
    6288139352883548160000 * u ^ 15 * v ^ 16 +
    67596957267840000 * u ^ 19 * v ^ 12 +
    318073392000 * u ^ 23 * v ^ 8 +
    755160 * u ^ 27 * v ^ 4 +
    1 * u ^ 31 * v ^ 0

/-- Integer form of `r/s < T(u/v) − 2 (u/v)^32 / 32!`. -/
def sinAbove (r s u v : ℕ) : Bool :=
  decide (r * Nat.factorial 32 * v ^ 32 + 2 * s * u ^ 32 + s * 32 * v * taylorNeg u v
    < s * 32 * v * taylorPos u v)

/-- Integer form of `T(u/v) + 2 (u/v)^32 / 32! < r/s`. -/
def sinBelow (r s u v : ℕ) : Bool :=
  decide (s * 32 * v * taylorPos u v + 2 * s * u ^ 32
    < r * Nat.factorial 32 * v ^ 32 + s * 32 * v * taylorNeg u v)

/-- Digits of π, rounded down; `piLow + 1` rounds up. -/
def piLow : ℕ := 31415926535897932384626433832795028841971

/-- The scale of `piLow`. -/
def piScale : ℕ := 10000000000000000000000000000000000000000

/-- Farey neighbours below the thresholds 1 … 16. -/
def neighbours1 : List (ℕ × ℕ) :=
  [(7516463, 2998904458), (20702341, 4129762756), (26380651, 3508144307), (17794875, 1774666349),
   (19985615, 1594369029), (21788945, 1448361112), (44572559, 2539235485), (82054499, 4089576834),
   (96161005, 4259375234), (21792908, 868598317), (9041273, 327526148), (57297329, 1902209592),
   (102053686, 3126637853), (79587833, 2263542741), (33026480, 876414757), (95700019, 2380071664)]

/-- Farey neighbours below the thresholds 17 … 32. -/
def neighbours2 : List (ℕ × ℕ) :=
  [(173764430, 4065930919), (186977993, 4130539043), (148250422, 3101432993), (75117407, 1492287662),
   (41114469, 777552559), (175329811, 3163663758), (111416428, 1922081985), (104448215, 1725932942),
   (264456608, 4192976793), (102117843, 1555967251), (143391167, 2102737557), (302591001, 4276305814),
   (186504870, 2543298271), (141374418, 1862425661), (251108428, 3199212239), (113896153, 1404773686)]

/-- Farey neighbours below the thresholds 33 … 48. -/
def neighbours3 : List (ℕ × ℕ) :=
  [(32130265, 384008763), (214723221, 2488994291), (303812844, 3418490543), (265946311, 2907030652),
   (397994690, 4229458639), (236201204, 2442012911), (409491998, 4121539689), (349519109, 3426949656),
   (12421969, 118716273), (200293223, 1866878870), (207833453, 1890297538), (80528174, 715073505),
   (446827594, 3875640801), (466637412, 3955362995), (233424235, 1934412818), (219977122, 1783041755)]

/-- Farey neighbours below the thresholds 49 … 64. -/
def neighbours4 : List (ℕ × ℕ) :=
  [(417221152, 3309079227), (541342106, 4202790801), (23677421, 180005755), (246731972, 1837457989),
   (558952064, 4079002239), (112554469, 805138678), (221177098, 1551357705), (518164535, 3564782176),
   (333601345, 2251702331), (512240041, 3393078129), (77725413, 505399691), (512113363, 3269636479),
   (204834380, 1284408173), (42561356, 262170431), (647396462, 3918354867), (247898032, 1474568589)]

/-- Farey neighbours below the thresholds 65 … 80. -/
def neighbours5 : List (ℕ × ℕ) :=
  [(584530191, 3417801470), (105483036, 606396139), (331258031, 1872650004), (683082393, 3798033688),
   (726815064, 3975402059), (197602586, 1063393361), (339635512, 1798574063), (538925892, 2808826895),
   (707442718, 3629374725), (813938836, 4110910473), (428497436, 2130877953), (863217374, 4227176003),
   (295546623, 1425374734), (219826994, 1044257219), (877270331, 4105171396), (859460023, 3962236505)]

/-- Farey neighbours below the thresholds 81 … 96. -/
def neighbours6 : List (ℕ × ℕ) :=
  [(309893834, 1407626747), (745156453, 3335204341), (967293599, 4266500519), (624028917, 2712641375),
   (774132894, 3316733689), (939247768, 3966554831), (738462454, 3074172699), (983697439, 4036953994),
   (740647927, 2996538391), (146347131, 583752607), (823030820, 3236797407), (332895181, 1290854464),
   (1106981107, 4232462888), (445158683, 1678266720), (961849029, 3575636128), (1136021103, 4164253214)]

/-- Farey neighbours below the thresholds 97 … 112. -/
def neighbours7 : List (ℕ × ℕ) :=
  [(20005679, 72311810), (625375333, 2228945452), (304296215, 1069429206), (1173789526, 4067549391),
   (789877414, 2698831497), (1043527157, 3515405336), (810447425, 2691718338), (1262579530, 4133988001),
   (620091931, 2001425564), (365516960, 1162853679), (248762065, 779992852), (990274315, 3059837898),
   (1146634592, 3490951077), (1255498410, 3765658441), (1113258877, 3288870242), (1406833129, 4092858710)]

/-- Farey neighbours below the thresholds 113 … 126. -/
def neighbours8 : List (ℕ × ℕ) :=
  [(801648438, 2296125113), (1383494471, 3900263168), (1162762239, 3225300854), (1047576124, 2857999107),
   (270666101, 725960352), (62085831, 163622503), (49034784, 126896159), (960300291, 2438401411),
   (1278252465, 3181587848), (405320851, 987661398), (1787513111, 4257010752), (697755205, 1620138862),
   (1864223997, 4204054996), (1694344166, 3683127363)]

/-- The Farey neighbours below the thresholds of the levels 1 … 126. -/
def neighbours : List (ℕ × ℕ) :=
  neighbours1 ++ neighbours2 ++ neighbours3 ++ neighbours4 ++ neighbours5 ++ neighbours6 ++ neighbours7 ++ neighbours8

theorem im_sum (x : ℝ) :
    (∑ m ∈ Finset.range 32, ((x : ℂ) * Complex.I) ^ m / (m.factorial : ℂ)).im =
      ∑ j ∈ Finset.range 16, (-1) ^ j * x ^ (2 * j + 1) / ((2 * j + 1).factorial : ℝ) := by
  have h : ∀ n : ℕ, (∑ m ∈ Finset.range (2 * n), ((x : ℂ) * Complex.I) ^ m / (m.factorial : ℂ)).im =
      ∑ j ∈ Finset.range n, (-1) ^ j * x ^ (2 * j + 1) / ((2 * j + 1).factorial : ℝ) := by
    intro n
    induction n with
    | zero => simp
    | succ n ih =>
      rw [show 2 * (n + 1) = 2 * n + 1 + 1 by ring, Finset.sum_range_succ, Finset.sum_range_succ,
        Finset.sum_range_succ, Complex.add_im, Complex.add_im, ih]
      have e0 : (((x : ℂ) * Complex.I) ^ (2 * n) / ((2 * n).factorial : ℂ)).im = 0 := by
        have : ((x : ℂ) * Complex.I) ^ (2 * n) / ((2 * n).factorial : ℂ)
            = (((-1) ^ n * x ^ (2 * n) / ((2 * n).factorial : ℝ) : ℝ) : ℂ) := by
          rw [mul_pow, pow_mul Complex.I, Complex.I_sq]; push_cast; ring
        rw [this, Complex.ofReal_im]
      have e1 : (((x : ℂ) * Complex.I) ^ (2 * n + 1) / ((2 * n + 1).factorial : ℂ)).im
          = (-1) ^ n * x ^ (2 * n + 1) / ((2 * n + 1).factorial : ℝ) := by
        have : ((x : ℂ) * Complex.I) ^ (2 * n + 1) / ((2 * n + 1).factorial : ℂ)
            = (((-1) ^ n * x ^ (2 * n + 1) / ((2 * n + 1).factorial : ℝ) : ℝ) : ℂ) * Complex.I := by
          rw [mul_pow, pow_succ Complex.I, pow_mul Complex.I, Complex.I_sq]; push_cast; ring
        rw [this, Complex.mul_I_im, Complex.ofReal_re]
      rw [e0, e1]; ring
  exact h 16

/-- The Taylor bound: the remainder after the term of degree 31. -/
theorem sin_taylor (x : ℝ) (h0 : 0 ≤ x) (h1 : x ≤ 16) :
    |sin x - ∑ j ∈ Finset.range 16, (-1) ^ j * x ^ (2 * j + 1) / ((2 * j + 1).factorial : ℝ)|
      ≤ x ^ 32 / (Nat.factorial 32 : ℝ) * 2 := by
  have hn : ‖(x : ℂ) * Complex.I‖ = x := by
    rw [norm_mul, Complex.norm_I, mul_one, Complex.norm_real, Real.norm_of_nonneg h0]
  have hb := Complex.exp_bound' (x := (x : ℂ) * Complex.I) (n := 32)
    (by rw [hn]; push_cast; rw [div_le_iff₀ (by norm_num)]; linarith)
  rw [hn] at hb
  have him := (Complex.abs_im_le_norm _).trans hb
  rwa [Complex.sub_im, im_sum, Complex.exp_im, Complex.mul_I_re, Complex.mul_I_im, Complex.ofReal_im,
    Complex.ofReal_re, neg_zero, Real.exp_zero, one_mul] at him

theorem taylor_eq (u v : ℕ) (hv : 0 < v) :
    ∑ j ∈ Finset.range 16, (-1) ^ j * ((u : ℝ) / v) ^ (2 * j + 1) / ((2 * j + 1).factorial : ℝ)
      = ((taylorPos u v : ℝ) - taylorNeg u v) / ((Nat.factorial 31 : ℝ) * (v : ℝ) ^ 31) := by
  have hv' : (v : ℝ) ≠ 0 := by positivity
  simp only [Finset.sum_range_succ, Finset.sum_range_zero, taylorPos, taylorNeg, Nat.factorial]
  push_cast
  field_simp
  ring

theorem sinAbove_sound {r s u v : ℕ} (hs : 0 < s) (hv : 0 < v) (huv : u ≤ 16 * v)
    (h : sinAbove r s u v = true) : (r : ℝ) / s < sin ((u : ℝ) / v) := by
  have hvR : (0 : ℝ) < v := by exact_mod_cast hv
  have hsR : (0 : ℝ) < s := by exact_mod_cast hs
  have ht := sin_taylor ((u : ℝ) / v) (by positivity)
    (by rw [div_le_iff₀ hvR]; exact_mod_cast huv)
  rw [taylor_eq u v hv] at ht
  have h' : (r : ℝ) * (Nat.factorial 32 : ℕ) * (v : ℝ) ^ 32 + 2 * s * (u : ℝ) ^ 32 + s * 32 * v * taylorNeg u v
      < s * 32 * v * taylorPos u v := by
    exact_mod_cast of_decide_eq_true h
  have hlow := (abs_le.mp ht).1
  have key : (r : ℝ) / s < ((taylorPos u v : ℝ) - taylorNeg u v) / ((Nat.factorial 31 : ℝ) * (v : ℝ) ^ 31)
      - ((u : ℝ) / v) ^ 32 / (Nat.factorial 32 : ℝ) * 2 := by
    have e : ((taylorPos u v : ℝ) - taylorNeg u v) / ((Nat.factorial 31 : ℝ) * (v : ℝ) ^ 31)
        - ((u : ℝ) / v) ^ 32 / (Nat.factorial 32 : ℝ) * 2
        = (32 * v * (taylorPos u v - taylorNeg u v) - 2 * (u : ℝ) ^ 32) / ((Nat.factorial 32 : ℝ) * v ^ 32) := by
      rw [show (Nat.factorial 32 : ℝ) = 32 * (Nat.factorial 31 : ℝ) by
        rw [Nat.factorial_succ]; push_cast; ring]
      have : (Nat.factorial 31 : ℝ) ≠ 0 := by positivity
      field_simp
    rw [e, div_lt_div_iff₀ hsR (by positivity)]
    nlinarith [h']
  linarith

theorem sinBelow_sound {r s u v : ℕ} (hs : 0 < s) (hv : 0 < v) (huv : u ≤ 16 * v)
    (h : sinBelow r s u v = true) : sin ((u : ℝ) / v) < (r : ℝ) / s := by
  have hvR : (0 : ℝ) < v := by exact_mod_cast hv
  have hsR : (0 : ℝ) < s := by exact_mod_cast hs
  have ht := sin_taylor ((u : ℝ) / v) (by positivity)
    (by rw [div_le_iff₀ hvR]; exact_mod_cast huv)
  rw [taylor_eq u v hv] at ht
  have h' : (s : ℝ) * 32 * v * taylorPos u v + 2 * s * (u : ℝ) ^ 32
      < r * (Nat.factorial 32 : ℕ) * (v : ℝ) ^ 32 + s * 32 * v * taylorNeg u v := by
    exact_mod_cast of_decide_eq_true h
  have hhigh := (abs_le.mp ht).2
  have key : ((taylorPos u v : ℝ) - taylorNeg u v) / ((Nat.factorial 31 : ℝ) * (v : ℝ) ^ 31)
      + ((u : ℝ) / v) ^ 32 / (Nat.factorial 32 : ℝ) * 2 < (r : ℝ) / s := by
    have e : ((taylorPos u v : ℝ) - taylorNeg u v) / ((Nat.factorial 31 : ℝ) * (v : ℝ) ^ 31)
        + ((u : ℝ) / v) ^ 32 / (Nat.factorial 32 : ℝ) * 2
        = (32 * v * (taylorPos u v - taylorNeg u v) + 2 * (u : ℝ) ^ 32) / ((Nat.factorial 32 : ℝ) * v ^ 32) := by
      rw [show (Nat.factorial 32 : ℝ) = 32 * (Nat.factorial 31 : ℝ) by
        rw [Nat.factorial_succ]; push_cast; ring]
      have : (Nat.factorial 31 : ℝ) ≠ 0 := by positivity
      field_simp
    rw [e, div_lt_div_iff₀ (by positivity) hsR]
    nlinarith [h']
  linarith

theorem piLow_lt : (piLow : ℝ) / piScale < π := by
  have h := sinBelow_sound (r := 1) (s := 2) (u := piLow) (v := 6 * piScale) (by decide) (by decide +kernel)
    (by decide +kernel) (by decide +kernel)
  by_contra hc
  have hp : π / 6 ≤ (piLow : ℝ) / ((6 * piScale : ℕ) : ℝ) := by
    push_cast
    rw [show (piLow : ℝ) / (6 * piScale) = ((piLow : ℝ) / piScale) / 6 by rw [div_div, mul_comm]]
    linarith [not_lt.mp hc]
  have hle : (piLow : ℝ) / ((6 * piScale : ℕ) : ℝ) ≤ 1 := by
    rw [div_le_one (by exact_mod_cast (by decide +kernel : 0 < 6 * piScale))]
    exact_mod_cast (by decide +kernel : piLow ≤ 6 * piScale)
  have := sin_le_sin_of_le_of_le_pi_div_two (x := π / 6) (by linarith [pi_pos]) (by linarith [pi_gt_three]) hp
  rw [sin_pi_div_six] at this
  push_cast at h this
  linarith

theorem lt_piHigh : π < ((piLow + 1 : ℕ) : ℝ) / piScale := by
  have h := sinAbove_sound (r := 1) (s := 2) (u := piLow + 1) (v := 6 * piScale) (by decide) (by decide +kernel)
    (by decide +kernel) (by decide +kernel)
  by_contra hc
  have hp : ((piLow + 1 : ℕ) : ℝ) / ((6 * piScale : ℕ) : ℝ) ≤ π / 6 := by
    push_cast
    rw [show ((piLow : ℝ) + 1) / (6 * piScale) = (((piLow : ℝ) + 1) / piScale) / 6 by rw [div_div, mul_comm]]
    have := not_lt.mp hc
    push_cast at this
    linarith
  have := sin_le_sin_of_le_of_le_pi_div_two (y := π / 6)
    (by linarith [pi_pos, (by positivity : (0 : ℝ) ≤ ((piLow + 1 : ℕ) : ℝ) / ((6 * piScale : ℕ) : ℝ))])
    (by linarith [pi_pos]) hp
  rw [sin_pi_div_six] at this
  push_cast at h this
  linarith

theorem piScale_pos : 0 < piScale := by decide +kernel

/-- The check that the sine is above r/s at the fraction p/q of a half turn. -/
def fractionAbove (r s p q : ℕ) : Bool :=
  decide (0 < q) && decide (2 * p ≤ q) && sinAbove r s (piLow * p) (piScale * q)

/-- The check that the sine is below r/s at the fraction p/q of a half turn. -/
def fractionBelow (r s p q : ℕ) : Bool :=
  decide (0 < q) && decide (2 * ((piLow + 1) * p) ≤ piLow * q) && sinBelow r s ((piLow + 1) * p) (piScale * q)

theorem phase_le_half {p q : ℕ} (hq : 0 < q) (hp : 2 * p ≤ q) : π * p / q ≤ π / 2 := by
  have hq' : (0 : ℝ) < q := by exact_mod_cast hq
  have hp' : 2 * (p : ℝ) ≤ q := by exact_mod_cast hp
  rw [div_le_div_iff₀ hq' (by norm_num)]
  nlinarith [pi_pos]

theorem fractionAbove_sound {r s p q : ℕ} (hs0 : 0 < s) (h : fractionAbove r s p q = true) :
    (r : ℝ) / s < sin (π * p / q) := by
  simp only [fractionAbove, Bool.and_eq_true, decide_eq_true_eq] at h
  obtain ⟨⟨hq, hp⟩, hs⟩ := h
  have hb : piLow * p ≤ 16 * (piScale * q) := by
    have : piLow ≤ 4 * piScale := by decide +kernel
    calc piLow * p ≤ 4 * piScale * q := Nat.mul_le_mul this (by omega)
      _ ≤ 16 * (piScale * q) := by nlinarith [Nat.zero_le (piScale * q)]
  have h1 := sinAbove_sound hs0 (Nat.mul_pos piScale_pos hq) hb hs
  have hle : ((piLow * p : ℕ) : ℝ) / ((piScale * q : ℕ) : ℝ) ≤ π * p / q := by
    push_cast
    rw [mul_div_mul_comm, mul_div_assoc]
    exact mul_le_mul_of_nonneg_right piLow_lt.le (by positivity)
  have h0 : (0 : ℝ) ≤ ((piLow * p : ℕ) : ℝ) / ((piScale * q : ℕ) : ℝ) := by positivity
  exact lt_of_lt_of_le h1
    (sin_le_sin_of_le_of_le_pi_div_two (by linarith [pi_pos]) (phase_le_half hq hp) hle)

theorem fractionBelow_sound {r s p q : ℕ} (hs0 : 0 < s) (h : fractionBelow r s p q = true) :
    sin (π * p / q) < (r : ℝ) / s := by
  simp only [fractionBelow, Bool.and_eq_true, decide_eq_true_eq] at h
  obtain ⟨⟨hq, hp⟩, hs⟩ := h
  have hq' : (0 : ℝ) < q := by exact_mod_cast hq
  have hS : (0 : ℝ) < piScale := by exact_mod_cast piScale_pos
  have hpR : 2 * (((piLow + 1 : ℕ) : ℝ) * p) ≤ piLow * q := by exact_mod_cast hp
  have hb : (piLow + 1) * p ≤ 16 * (piScale * q) := by
    have : piLow ≤ 4 * piScale := by decide +kernel
    calc (piLow + 1) * p ≤ piLow * q := by omega
      _ ≤ 4 * piScale * q := Nat.mul_le_mul_right q this
      _ ≤ 16 * (piScale * q) := by nlinarith [Nat.zero_le (piScale * q)]
  have h1 := sinBelow_sound hs0 (Nat.mul_pos piScale_pos hq) hb hs
  have hle : π * p / q ≤ (((piLow + 1) * p : ℕ) : ℝ) / ((piScale * q : ℕ) : ℝ) := by
    rw [Nat.cast_mul, Nat.cast_mul, mul_div_mul_comm, mul_div_assoc]
    exact mul_le_mul_of_nonneg_right lt_piHigh.le (by positivity)
  have hhalf : (((piLow + 1) * p : ℕ) : ℝ) / ((piScale * q : ℕ) : ℝ) ≤ π / 2 := by
    have h2 : (((piLow + 1) * p : ℕ) : ℝ) / ((piScale * q : ℕ) : ℝ) ≤ ((piLow : ℝ) / piScale) / 2 := by
      rw [Nat.cast_mul, Nat.cast_mul, div_div, div_le_div_iff₀ (by positivity) (by positivity)]
      nlinarith [mul_le_mul_of_nonneg_right hpR hS.le]
    linarith [piLow_lt]
  have h0 : (0 : ℝ) ≤ π * p / q := by positivity
  exact lt_of_le_of_lt (sin_le_sin_of_le_of_le_pi_div_two (by linarith [pi_pos]) hhalf hle) h1

/-- What a row (p, q) of `thresholds` says of level `k`, for every fraction of a half turn that can occur. -/
def Reaches (k : ℕ) (t : ℕ × ℕ) : Prop :=
  ∀ x n : ℕ, 0 < n → n < 2 ^ 32 → 2 * x ≤ n →
    (t.1 * n ≤ x * t.2 ↔ (k : ℝ) ≤ 127 * sin (π * x / n))

/-- The check of one row: the sine brackets k/127 at the row and at its Farey neighbour below. -/
def rowOk (k : ℕ) (t l : ℕ × ℕ) : Bool :=
  fractionAbove k 127 t.1 t.2 && fractionBelow k 127 l.1 l.2
    && decide (t.1 * l.2 = l.1 * t.2 + 1) && decide (2 ^ 32 ≤ t.2 + l.2)

theorem phase_le_phase {x n p q : ℕ} (hn : 0 < n) (hq : 0 < q) (h : x * q ≤ p * n) :
    π * x / n ≤ π * p / q := by
  have hn' : (0 : ℝ) < n := by exact_mod_cast hn
  have hq' : (0 : ℝ) < q := by exact_mod_cast hq
  have h' : (x : ℝ) * q ≤ p * n := by exact_mod_cast h
  rw [div_le_div_iff₀ hn' hq']
  nlinarith [pi_pos]

theorem neg_half_pi_le_phase (x n : ℕ) : -(π / 2) ≤ π * x / n := by
  have : (0 : ℝ) ≤ π * x / n := by positivity
  linarith [pi_pos]

theorem reaches_of_rowOk {k : ℕ} {t l : ℕ × ℕ} (h : rowOk k t l = true) : Reaches k t := by
  simp only [rowOk, Bool.and_eq_true, decide_eq_true_eq] at h
  obtain ⟨⟨⟨ha, hb⟩, hd⟩, hs⟩ := h
  have hqt : 0 < t.2 := by
    simp only [fractionAbove, Bool.and_eq_true, decide_eq_true_eq] at ha; exact ha.1.1
  have hql : 0 < l.2 := by
    simp only [fractionBelow, Bool.and_eq_true, decide_eq_true_eq] at hb; exact hb.1.1
  have hlh : 2 * l.1 ≤ l.2 := by
    simp only [fractionBelow, Bool.and_eq_true, decide_eq_true_eq] at hb
    by_contra hc
    have hb := hb.1.2
    have : piLow * l.2 ≤ piLow * (2 * l.1) := Nat.mul_le_mul_left _ (by omega)
    have h1 : 0 < l.1 := by omega
    nlinarith
  have hA := fractionAbove_sound (by norm_num) ha
  have hB := fractionBelow_sound (by norm_num) hb
  intro x n hn hn32 hx
  constructor
  · intro hle
    have := sin_le_sin_of_le_of_le_pi_div_two (neg_half_pi_le_phase t.1 t.2) (phase_le_half hn hx)
      (phase_le_phase hqt hn hle)
    rw [div_lt_iff₀ (by norm_num)] at hA
    push_cast at hA
    nlinarith
  · intro hk
    by_contra hc
    have hxl : x * l.2 ≤ l.1 * n := by
      by_contra hgt
      have h1 : l.1 * n + 1 ≤ x * l.2 := by omega
      have h2 : x * t.2 + 1 ≤ t.1 * n := by omega
      have e : n * (t.1 * l.2) = n * (l.1 * t.2 + 1) := by rw [hd]
      have h3 := Nat.mul_le_mul_right t.2 h1
      have h4 := Nat.mul_le_mul_right l.2 h2
      nlinarith
    have := sin_le_sin_of_le_of_le_pi_div_two (neg_half_pi_le_phase x n) (phase_le_half hql hlh)
      (phase_le_phase hn hql hxl)
    rw [lt_div_iff₀ (by norm_num)] at hB
    push_cast at hB
    nlinarith

/-- Level 127, the peak, is reached exactly at the quarter turn. -/
theorem reaches_peak : Reaches 127 (1, 2) := by
  intro x n hn _ hx
  have hn' : (0 : ℝ) < n := by exact_mod_cast hn
  constructor
  · intro h
    have e : n = 2 * x := by simp only at h; omega
    have : π * x / n = π / 2 := by
      rw [div_eq_div_iff hn'.ne' (by norm_num), e]; push_cast; ring
    rw [this, sin_pi_div_two]; norm_num
  · intro h
    by_contra hc
    have hlt : π * x / n < π / 2 := by
      have : 2 * (x : ℝ) < n := by exact_mod_cast (show 2 * x < n by simp only at hc; omega)
      rw [div_lt_div_iff₀ hn' (by norm_num)]
      nlinarith [pi_pos]
    have := sin_lt_sin_of_lt_of_le_pi_div_two (neg_half_pi_le_phase x n) le_rfl hlt
    rw [sin_pi_div_two] at this
    push_cast at h
    linarith

/-- A list of thresholds is right from level `k + 1` on. -/
def RowsReach : ℕ → List (ℕ × ℕ) → Prop
  | _, [] => True
  | k, t :: ts => Reaches (k + 1) t ∧ RowsReach (k + 1) ts

/-- The check of a list of thresholds beside its list of neighbours; the last row is the peak. -/
def rowsOk : ℕ → List (ℕ × ℕ) → List (ℕ × ℕ) → Bool
  | k, [t], [] => decide (k = 126) && decide (t = (1, 2))
  | k, t :: ts, l :: ls => rowOk (k + 1) t l && rowsOk (k + 1) ts ls
  | _, _, _ => false

theorem rowsReach_of_rowsOk : ∀ (k : ℕ) (ts ls : List (ℕ × ℕ)), rowsOk k ts ls = true → RowsReach k ts
  | k, [t], [], h => by
    simp only [rowsOk, Bool.and_eq_true, decide_eq_true_eq] at h
    exact ⟨by rw [h.1, h.2]; exact reaches_peak, trivial⟩
  | k, t :: ts, l :: ls, h => by
    simp only [rowsOk, Bool.and_eq_true] at h
    exact ⟨reaches_of_rowOk h.1, rowsReach_of_rowsOk (k + 1) ts ls h.2⟩
  | _, [], _, _ => trivial
  | _, _ :: _ :: _, [], h => by simp [rowsOk] at h

theorem rowsReach_thresholds : RowsReach 0 Machine.thresholds :=
  rowsReach_of_rowsOk 0 Machine.thresholds neighbours (by decide +kernel)

theorem levelsReached_spec {x n : ℕ} (hn : 0 < n) (hn32 : n < 2 ^ 32) (hx : 2 * x ≤ n) :
    ∀ (ts : List (ℕ × ℕ)) (k : ℕ), RowsReach k ts → (k : ℝ) ≤ 127 * sin (π * x / n) →
      127 * sin (π * x / n) < k + ts.length + 1 →
      ((k + Machine.levelsReached ts x n : ℕ) : ℝ) ≤ 127 * sin (π * x / n) ∧
        127 * sin (π * x / n) < ((k + Machine.levelsReached ts x n : ℕ) : ℝ) + 1
  | [], k, _, hk, hlt => by
    rw [List.length_nil] at hlt
    exact ⟨hk, by simpa [Machine.levelsReached] using hlt⟩
  | t :: ts, k, hr, hk, hlt => by
    by_cases h : t.1 * n ≤ x * t.2
    · have hk1 := (hr.1 x n hn hn32 hx).mp h
      have ih := levelsReached_spec hn hn32 hx ts (k + 1) hr.2 hk1 (by
        rw [List.length_cons] at hlt; push_cast at hlt ⊢; linarith)
      rw [Machine.levelsReached, if_pos h]
      rwa [show k + (Machine.levelsReached ts x n + 1) = k + 1 + Machine.levelsReached ts x n by ring]
    · have hk1 := fun hle => h ((hr.1 x n hn hn32 hx).mpr hle)
      rw [Machine.levelsReached, if_neg h]
      push_cast at hk1 ⊢
      exact ⟨by linarith, by linarith [not_le.mp hk1]⟩

/-- **What `level` is**: the whole part of `127 sin(πx/n)`, for every fraction of a half turn up to a quarter turn
whose denominator fits in a register. -/
theorem level_eq_floor {x n : ℕ} (hn : 0 < n) (hn32 : n < 2 ^ 32) (hx : 2 * x ≤ n) :
    (Machine.level x n : ℤ) = ⌊127 * sin (π * x / n)⌋ := by
  have h0 : (0 : ℝ) ≤ sin (π * x / n) :=
    sin_nonneg_of_nonneg_of_le_pi (by positivity) (by linarith [phase_le_half hn hx, pi_pos])
  have hlen : Machine.thresholds.length = 127 := by decide +kernel
  have := levelsReached_spec hn hn32 hx Machine.thresholds 0 rowsReach_thresholds
    (by push_cast; linarith) (by rw [hlen]; push_cast; linarith [sin_le_one (π * x / n)])
  rw [eq_comm, Int.floor_eq_iff]
  simpa [Machine.level] using this

end Sys2Proof.Laws.Sine
end

