-- ==== Sys2Proof/Laws/SineQuadrants.lean ====
section
/-! SUPPORT. The exact sine of R100 brought into the first quarter turn, as Machine/Sample.lean brings the index. -/

namespace Sys2Proof.Machine

open Real

theorem exactSine_halfTurn {i N : ℕ} (h : i < N) : exactSine i N =
    if 2 * i < N then 127 * sin (π * halfTurn i N / N) else -(127 * sin (π * halfTurn i N / N)) := by
  have hN : (N : ℝ) ≠ 0 := by exact_mod_cast (show N ≠ 0 by omega)
  rw [exactSine, halfTurn]
  by_cases hh : 2 * i < N
  · rw [if_pos hh, if_pos hh]
    push_cast
    ring_nf
  · have e : ((2 * i - N : ℕ) : ℝ) = 2 * i - N := by rw [Nat.cast_sub (by omega)]; push_cast; ring
    rw [if_neg hh, if_neg hh, e, show π * (2 * i - N) / N = 2 * π * i / N - π by field_simp, sin_sub_pi]
    ring

/-- The exact value of R100 at a phase of the first quarter turn, with its sign. -/
theorem exactSine_quarterTurn {i N : ℕ} (h : i < N) : exactSine i N =
    if 2 * i < N then 127 * sin (π * quarterTurn i N / N) else -(127 * sin (π * quarterTurn i N / N)) := by
  have hN : (N : ℝ) ≠ 0 := by exact_mod_cast (show N ≠ 0 by omega)
  have hq : sin (π * quarterTurn i N / N) = sin (π * halfTurn i N / N) := by
    rw [quarterTurn]
    split
    · rfl
    · have e : ((N - halfTurn i N : ℕ) : ℝ) = N - halfTurn i N := by rw [Nat.cast_sub (halfTurn_lt h).le]
      rw [e, show π * (N - halfTurn i N) / N = π - π * halfTurn i N / N by field_simp, sin_pi_sub]
  rw [exactSine_halfTurn h, hq]

end Sys2Proof.Machine
end

