-- ==== Sys2Proof/Tests/Slice0.lean ====
section
/-! SUPPORT. Tests: words written out from the encoding, the spec's own vectors (95_test_vectors.md, named beside
each), the smoke test of WellFormed, and one witness for the hypotheses of every statement that has some. -/

namespace Sys2Proof.Tests

open Sys2Proof.Machine

/-! ### Small states -/

/-- The example configuration of 95_test_vectors.md, with a window that does not start at 0. -/
def params : Params := ⟨64, 256, 0x1000⟩

/-- Right after reset. -/
def fresh : State := State.initial params

/-- After `cfg_rate r`. -/
def rated (r : Word) : State := { fresh with sampleRate := r, rateValid := true }

/-- The N = 8 and N = 4 rows of the table of 95_test_vectors.md section 2.1. -/
def row8 : Memory := [(0, 0), (1, 89), (2, 127), (3, 89), (4, 0), (5, 0xA7), (6, 0x81), (7, 0xA7)]
def row4 : Memory := [(0, 0), (1, 127), (2, 0), (3, 0x81)]

/-- After `cfg_rate 16000 ; cfg_fsk 2000, 4000` (the "cache" of section 2.5). -/
def cached : State :=
  { rated 16000 with symValid := true, freqLow := 2000, freqHigh := 4000, lenLow := 8, lenHigh := 4,
                     symLow := row8, symHigh := row4 }

/-- After `cfg_rate 4000 ; wave 1000, 1`. -/
def waved : State := { rated 4000 with out := row4, outLen := 4 }

/-- `wr ARG0, 4000 ; wr CMD, CFG_RATE`, completion step not yet taken (RA17). -/
def busyState : State :=
  { fresh with arg0 := 4000, cmdLast := 1, busy := true, inflight := some ⟨1, 4000, 0⟩ }

/-- The state a step answers, and `s` where it answers none. -/
def after (s : State) : Host.Outcome State Fault Refusal → State
  | .next t => t
  | .fault _ => s
  | .refused _ => s

/-- STATUS after the command `c` with `a0` and `a1` completes, as the last poll of section 2 reads it. -/
def statusAfter (s : State) (c a0 a1 : Word) : Word :=
  statusWord (after s (completionStep (inFlight s c a0 a1)))

/-- The state after the command `c` with `a0` and `a1` completes. -/
def ran (s : State) (c a0 a1 : Word) : State := after s (completionStep (inFlight s c a0 a1))

/-- The two symbol lengths, SYM_SIZE and STATUS. -/
def cacheView (t : State) : Word × Word × Word × Word := (t.lenLow, t.lenHigh, symSize t, statusWord t)

/-- The two symbols. -/
def symbols (t : State) : Memory × Memory := (t.symLow, t.symHigh)

/-- The registers a successful CFG_RATE writes, SYM_SIZE and STATUS. -/
def rateView (t : State) : Word × Word × Word × Word × Word × Word × Word × Word × Word :=
  (t.sampleRate, t.freqLow, t.freqHigh, t.lenLow, t.lenHigh, symSize t, t.outLen, t.rdPtr, statusWord t)

/-- The state a step answers. -/
def stepped (s : State) : State := after s (step s)

/-- The samples of the output after a command, and their number. -/
def outputAfter (s : State) (c a0 a1 : Word) : Word × Memory :=
  let t := after s (completionStep (inFlight s c a0 a1))
  (t.outLen, t.out)

/-! ### Decoding (R80, R82, R83), words written out from the table of rule R82 -/

theorem test_decode_words :
    decodeWord 0b00000000000000000000000000000001#32 = .ok .cfgRate ∧
    decodeWord 0b00000000000000000000000000000010#32 = .ok .wave ∧
    decodeWord 0b00000000000000000000000000000011#32 = .ok .cfgFsk ∧
    decodeWord 0b00000000000000000000000000000100#32 = .ok .encodeBit := by decide

/-- RA21, RA22, RA23 and program P3: words the block answers with ILLEGAL_CMD. -/
theorem test_decode_illegal :
    decodeWord 0x00000107#32 = .rejected .reservedBits ∧ decodeWord 0x00000105#32 = .rejected .reservedBits ∧
    decodeWord 0x00000000#32 = .rejected .reservedOpcode ∧ decodeWord 0x00000005#32 = .rejected .reservedOpcode ∧
    decodeBytes [1, 0, 0] = .rejected .truncated ∧ decodeBytes [2, 0, 0, 0, 9] = .ok (.wave, [9]) := by decide

theorem test_table_words :
    decodeTableWord 32 1 = some .cfgRate ∧ decodeTableWord 32 2 = some .wave ∧
    decodeTableWord 32 3 = some .cfgFsk ∧ decodeTableWord 32 4 = some .encodeBit ∧
    decodeTableWord 32 0 = none ∧ decodeTableWord 32 0x104 = none := by decide

/-- The placed word runs at the very next step after reset: SEQ_RATE, as WV1. -/
theorem test_placed_wave_runs : statusWord (after fresh (step (State.reset.withFetchWord 32 2))) = 0x80 := by
  decide +kernel

/-! ### WellFormed: an ill-formed term for each check, refused -/

theorem test_params_smoke :
    Params.legal ⟨3, 256, 0⟩ = false ∧ Params.legal ⟨64, 63, 0⟩ = false ∧ Params.legal ⟨64, 2 ^ 31, 0⟩ = false ∧
    Params.legal ⟨64, 256, 0x20⟩ = false ∧ params.legal = true ∧ Params.legal ⟨4, 4, 0⟩ = true := by decide

theorem test_value_smoke :
    (Value.dec (-(2 ^ 31) - 1)).wf .arg0 = false ∧ (Value.dec (2 ^ 32)).wf .arg0 = false ∧
    (Value.hex (16 ^ 8)).wf .arg0 = false ∧ (Value.mnemonic .wave).wf .arg0 = false ∧
    (Line.wr .status (.mnemonic .wave)).wf = false ∧ (Line.wr .cmd (.mnemonic .wave)).wf = true ∧
    (Line.wr .arg0 (.dec (-1))).wf = true ∧ Line.poll.wf = true ∧ (Line.rd .cmd none).wf = true ∧
    Instr.wf .wave = true := by decide

/-! ### The sample function: section 2.1 of the vectors -/

theorem test_sample_rows :
    (List.range 5).map (S · 5) = [0, 120, 74, -74, -120] ∧
    (List.range 7).map (S · 7) = [0, 99, 123, 55, -55, -123, -99] ∧
    (List.range 8).map (S · 8) = [0, 89, 127, 89, 0, -89, -127, -89] ∧
    (List.range 18).map (S · 18) =
      [0, 43, 81, 109, 125, 125, 109, 81, 43, 0, -43, -81, -109, -125, -125, -109, -81, -43] ∧
    (List.range 19).map (S · 36) =
      [0, 22, 43, 63, 81, 97, 109, 119, 125, 127, 125, 119, 109, 97, 81, 63, 43, 22, 0] := by decide +kernel

/-- The individual values of section 2.1. -/
theorem test_sample_values : S 1 797 = 1 ∧ S 1 798 = 0 ∧ S 1499 3399 = 45 := by decide +kernel

/-! ### The commands: the STATUS column of sections 2.2 to 2.5 -/

/-- CR1, CR2, CR3, CR4, CR7. -/
theorem test_cfg_rate_status :
    statusAfter fresh 1 4000 0 = 0x04 ∧ statusAfter fresh 1 0 0 = 0x20 ∧ statusAfter fresh 1 0xFFFFFFFF 0 = 0x20 ∧
    statusAfter fresh 1 0x7FFFFFFF 0 = 0x04 ∧ statusAfter cached 1 0xFFFFFFFB 0 = 0x2C := by decide +kernel

/-- CR6: a successful CFG_RATE invalidates the cache and empties the output. -/
theorem test_cfg_rate_clears :
    rateView (ran { cached with out := row8, outLen := 8, rdPtr := 3 } 1 16000 0) =
      (16000, 0, 0, 0, 0, 0, 0, 0, 0x04) := by decide +kernel

/-- WV1, WV4, WV6, WV7, WV8, WV9, WV11, WV12, WV13, WV14, WV19, WV20. -/
theorem test_wave_errors :
    statusAfter fresh 2 1000 1 = 0x80 ∧ statusAfter (rated 3999) 2 1000 1 = 0x44 ∧
    statusAfter (rated 4000) 2 0 1 = 0x34 ∧ statusAfter (rated 4000) 2 (-5) 1 = 0x34 ∧
    statusAfter (rated 0x7FFFFFFF) 2 0x40000000 1 = 0x44 ∧ statusAfter (rated 0x7FFFFFFF) 2 0x20000000 1 = 0x44 ∧
    statusAfter (rated 4000) 2 1000 0 = 0x74 ∧ statusAfter (rated 4000) 2 1000 (-1) = 0x74 ∧
    statusAfter (rated 4000) 2 0 0 = 0x34 ∧ statusAfter (rated 44100) 2 600 1 = 0xA4 ∧
    statusAfter (rated 4000) 2 1000 65 = 0xB4 ∧ statusAfter (rated 4000) 2 1000 0x7FFFFFFF = 0xB4 := by
  decide +kernel

/-- WV2, WV5, WV10, WV16, WV18, WV24. -/
theorem test_wave_output :
    outputAfter (rated 4000) 2 1000 1 = (4, row4) ∧ (outputAfter (rated 4001) 2 1000 1).1 = 4 ∧
    (outputAfter (rated 0x7FFFFFFF) 2 0x1FFFFFFF 1).1 = 4 ∧ (outputAfter (rated 44100) 2 689 1).1 = 64 ∧
    (outputAfter (rated 4000) 2 1000 64).1 = 256 ∧ outputAfter cached 2 2000 1 = (8, row8) ∧
    statusAfter cached 2 2000 1 = 0x0C := by decide +kernel

/-- FS1, FS3, FS4, FS5, FS6, FS9, FS11, FS12. -/
theorem test_cfg_fsk_errors :
    statusAfter fresh 3 1000 2000 = 0x80 ∧ statusAfter (rated 16000) 3 2000 2000 = 0x54 ∧
    statusAfter (rated 16000) 3 0 0 = 0x34 ∧ statusAfter (rated 16000) 3 1000 (-1) = 0x34 ∧
    statusAfter (rated 8000) 3 1000 3000 = 0x44 ∧ statusAfter (rated 44100) 3 600 1200 = 0xA4 ∧
    statusAfter cached 3 2000 5000 = 0x4C ∧ statusAfter (rated 4000) 3 5000 5000 = 0x54 := by decide +kernel

/-- FS2 and FS10: the two symbols, their lengths, SYM_SIZE and STATUS. -/
theorem test_cfg_fsk_cache :
    cacheView (ran (rated 16000) 3 2000 4000) = (8, 4, 8, 0x0C) ∧
    symbols (ran (rated 16000) 3 2000 4000) = (row8, row4) ∧
    cacheView (ran (rated 16000) 3 4000 2000) = (4, 8, 8, 0x0C) ∧
    symbols (ran (rated 16000) 3 4000 2000) = (row4, row8) := by
  decide +kernel

/-- EB1, EB4, EB5, EB6, EB7, EB8, EB10, EB12, EB13. -/
theorem test_encode_bit_errors :
    statusAfter (rated 16000) 4 0 1 = 0x94 ∧ statusAfter cached 4 2 1 = 0x6C ∧ statusAfter cached 4 (-1) 1 = 0x6C ∧
    statusAfter cached 4 0x101 1 = 0x6C ∧ statusAfter cached 4 0 0 = 0x7C ∧ statusAfter cached 4 2 0 = 0x6C ∧
    statusAfter cached 4 0 33 = 0xBC ∧ statusAfter cached 4 1 65 = 0xBC ∧
    statusAfter cached 4 0 0x7FFFFFFF = 0xBC := by decide +kernel

/-- EB2, EB9, EB11, and the example of R132 with count 2: the high symbol, replicated. -/
theorem test_encode_bit_output :
    outputAfter cached 4 0 1 = (8, row8) ∧ (outputAfter cached 4 0 32).1 = 256 ∧
    (outputAfter cached 4 1 64).1 = 256 ∧
    outputAfter cached 4 1 2 =
      (8, [(0, 0), (1, 127), (2, 0), (3, 0x81), (4, 0), (5, 127), (6, 0), (7, 0x81)]) := by decide +kernel

/-! ### Register access: section 2.6 -/

/-- RA1, RA2, RA6, RA8, RA9, RA15, RA16, RA25: values read. -/
theorem test_reads :
    (readAt fresh 0x0C 4).reads = [0] ∧ readAt fresh 0x30 4 = { fresh with aerr := true, reads := [0] } ∧
    readAt fresh 0x3C 4 = { fresh with aerr := true, reads := [0] } ∧
    readAt fresh 0x0C 1 = { fresh with aerr := true, reads := [0] } ∧
    readAt fresh 0x02 4 = { fresh with aerr := true, reads := [0] } ∧
    (readAt fresh 0x34 4).reads = [0x40] ∧ (readAt fresh 0x38 4).reads = [0x100] ∧
    (readAt busyState 0x0C 4).reads = [1] := by decide +kernel

/-- The example of R171: four reads, the fourth at index 3, and the underflow after it. -/
theorem test_out_data :
    readAt { waved with rdPtr := 3 } 0x30 4 = { waved with rdPtr := 4, reads := [0xFFFFFF81] } ∧
    readAt { waved with rdPtr := 4 } 0x30 4 = { waved with rdPtr := 4, aerr := true, reads := [0] } := by
  decide +kernel

/-- RA3, RA4, RA5, RA7, RA10, RA12, RA14, RA17, RA20: writes. -/
theorem test_writes :
    writeAt { fresh with aerr := true } 0x0C 4 0xFFFFFFFD = { fresh with aerr := true } ∧
    writeAt { fresh with aerr := true } 0x0C 4 2 = fresh ∧
    statusWord (writeAt (rated 4000) 0x10 4 8000) = 0x06 ∧ (writeAt (rated 4000) 0x10 4 8000).sampleRate = 4000 ∧
    writeAt fresh 0x3C 4 1 = { fresh with aerr := true } ∧
    writeAt waved 0x2C 4 5 = { waved with aerr := true } ∧
    writeAt waved 0x2C 4 0x80000000 = { waved with aerr := true } ∧
    writeAt waved 0x2C 4 4 = { waved with rdPtr := 4 } ∧ writeAt waved 0x30 4 5 = { waved with aerr := true } ∧
    writeAt busyState 0x04 4 7 = { busyState with aerr := true } ∧
    writeAt fresh 0x04 4 0xFFFFFFFF = { fresh with arg0 := 0xFFFFFFFF } := by decide +kernel

/-- RS2: a reset abandons the command in flight. -/
theorem test_reset_abandons : after fresh (step { busyState with turns := [.reset] }) = fresh := by decide +kernel

/-- The pseudo-instruction `cfg_rate 4000` as the transactions of P1. -/
theorem test_assemble_cfg_rate :
    assemble 0 [.cfgRate (.dec 4000)] =
      [.access ⟨.write, 0x04, 4, 0x00000FA0⟩, .access ⟨.write, 0x00, 4, 0x00000001⟩, .poll] := by decide +kernel

/-! ### Witnesses: states and operands that meet the hypotheses of the statements -/

theorem wf_rows : row8.wf ∧ row4.wf := by decide

theorem rows_read :
    (∀ i, i < 8 → Memory.read row8 i = some (sample i 8)) ∧
    (∀ i, i < 4 → Memory.read row4 i = some (sample i 4)) := by decide +kernel

theorem low_ok : SymbolOk 16000 2000 8 64 row8 :=
  ⟨by decide, by decide, by decide, by decide, rows_read.1⟩

theorem high_ok : SymbolOk 16000 4000 4 64 row4 :=
  ⟨by decide, by decide, by decide, by decide, rows_read.2⟩

theorem out_written : ∀ k, k < 4 → ∃ b, Memory.read row4 k = some b ∧ b ≠ 0x80#8 := by
  intro k hk
  have h : ∀ k, k < 4 → sample k 4 ≠ 0x80#8 := by decide +kernel
  exact ⟨sample k 4, rows_read.2 k hk, h k hk⟩

theorem params_legal : params.legal = true := by decide

/-- Inv at a state with a valid cache, output, a host program and an interleaving still to come. -/
theorem inv_cached_output (program : List HostOp) (interleaving : List Turn) :
    Inv { cached with out := row4, outLen := 4, rdPtr := 2, host := program, turns := interleaving } where
  legal := params_legal
  busy_iff := rfl
  latched := fun _ h => nomatch h
  ecode_busy := fun h => nomatch h
  rate_off := fun h => nomatch h
  rate_on := fun _ => (by decide : 1 ≤ u32 (16000 : Word) ∧ u32 (16000 : Word) ≤ 2 ^ 31 - 1)
  sym_off := fun h => nomatch h
  sym_low := fun _ => low_ok
  sym_high := fun _ => high_ok
  sym_ne := fun _ => (by decide : (2000 : Word) ≠ 4000)
  cursor := (by decide : u32 (2 : Word) ≤ u32 (4 : Word) ∧ u32 (4 : Word) ≤ 256)
  ecode_le := (by decide : (0 : BitVec 4) ≤ 0xB#4)
  out_valid := out_written
  low_array := ⟨wf_rows.1, (by decide : ∀ c ∈ row8, c.1 < 64)⟩
  high_array := ⟨wf_rows.2, (by decide : ∀ c ∈ row4, c.1 < 64)⟩
  out_array := ⟨wf_rows.2, (by decide : ∀ c ∈ row4, c.1 < 256)⟩

/-- Inv at a state with a command in flight and a poll pending. -/
theorem inv_busy (program : List HostOp) (interleaving : List Turn) :
    Inv { busyState with host := program, turns := interleaving } where
  legal := params_legal
  busy_iff := rfl
  latched := fun q h => by cases h; rfl
  ecode_busy := fun _ => rfl
  rate_off := fun _ => ⟨rfl, rfl⟩
  rate_on := fun h => nomatch h
  sym_off := fun _ => ⟨rfl, rfl, rfl, rfl⟩
  sym_low := fun h => nomatch h
  sym_high := fun h => nomatch h
  sym_ne := fun h => nomatch h
  cursor := (by decide : u32 (0 : Word) ≤ u32 (0 : Word) ∧ u32 (0 : Word) ≤ 256)
  ecode_le := (by decide : (0 : BitVec 4) ≤ 0xB#4)
  out_valid := fun _ h => absurd h (Nat.not_lt_zero _)
  low_array := ⟨List.Pairwise.nil, fun _ h => nomatch h⟩
  high_array := ⟨List.Pairwise.nil, fun _ h => nomatch h⟩
  out_array := ⟨List.Pairwise.nil, fun _ h => nomatch h⟩

/-- StepKeepsInv, AerrIsSticky and the other whole-machine rules: a completion from a state that meets Inv. -/
theorem witness_StepKeepsInv :
    Inv busyState ∧ ∃ t, step busyState = .next t ∧ t.rateValid ≠ busyState.rateValid :=
  ⟨inv_busy [] [], _, rfl, by decide⟩

theorem witness_ReachableStatesMeetInv : params.legal = true ∧
    ∃ t, Host.Core.run core 1 ({ fresh with host := [.poll], turns := [.host] } : State) = .next t :=
  ⟨rfl, _, rfl⟩

theorem witness_InvAfterReset : params.legal = true := rfl

theorem witness_PollEnds :
    Inv { busyState with host := [.poll], turns := [.host, .reset] } ∧
    OneHost { busyState with host := [.poll], turns := [.host, .reset] } :=
  ⟨inv_busy _ _, by intro t h a; simp at h; rcases h with rfl | rfl <;> simp⟩

theorem witness_StepNeverTraps : ∀ a, fresh.turns.head? ≠ some (.foreign a) := fun _ h => nomatch h

theorem witness_DecodeAndEncodeAgree : decodeWord 4 = .ok .encodeBit := by decide

theorem witness_BytesDecodeAsTheirWord : ([1, 0, 0] : List Byte).length < 4 ∧ (3 : Nat) < 4 := by decide

/-- Each class of illegal word, at its edge: RSVD = 1, OPCODE 0x00, OPCODE 0x05. -/
theorem witness_IllegalWordsIssueAndFail :
    (0x101#32).extractLsb' 8 24 ≠ 0 ∧ (0x0#32).extractLsb' 0 8 = 0 ∧ 0x05#8 ≤ (0x5#32).extractLsb' 0 8 ∧
    fresh.busy = false ∧ (inFlight fresh 5 0 0).inflight = some ⟨5, 0, 0⟩ := by decide

theorem witness_StepRunsDecodedCommand :
    busyState.turns = [] ∧ busyState.inflight = some ⟨1, 4000, 0⟩ ∧ decodeWord 1 = .ok .cfgRate ∧
    ({ busyState with turns := [.block] } : State).turns.head? = some .block := by decide

theorem witness_StepRunsPlacedCommand : decodeWord 2 = .ok .wave := by decide

/-- A host about to read STATUS of an idle block, and a host polling a busy one at its turn. -/
def reading : State := { fresh with host := [.access ⟨.read, 0x100C, 4, 0⟩] }
def polling : State := { busyState with host := [.poll], turns := [.host] }
def disturbing : State := { busyState with turns := [.host], host := [.access ⟨.write, 0x1004, 4, 7⟩] }

theorem witness_StepPerformsHostAccess :
    reading.turns = [] ∧ reading.inflight = none ∧ reading.host = .access ⟨.read, 0x100C, 4, 0⟩ :: [] ∧
    ({ reading with turns := [.host] } : State).turns.head? = some .host := by decide

theorem witness_PollRepeatsWhileBusy :
    polling.turns.head? = some .host ∧ polling.host = .poll :: [] ∧ polling.busy = true := by decide

theorem witness_ResetClearsTheBlock :
    ({ busyState with turns := [.reset] } : State).turns.head? = some .reset := by decide

theorem witness_SecondMasterIsRefused :
    ({ fresh with turns := [.foreign ⟨.read, 0x1000, 4, 0⟩] } : State).turns.head? =
      some (.foreign ⟨.read, 0x1000, 4, 0⟩) := by decide

theorem witness_InstancesStepAlone :
    [fresh, busyState][1]? = some busyState ∧ ∃ t, step busyState = .next t := ⟨rfl, _, rfl⟩

theorem witness_IdleStatePersists : fresh.turns = [] ∧ fresh.inflight = none ∧ fresh.host = [] := by decide

/-- Both clauses, at r = 0 and r = 1. -/
theorem witness_CfgRateResult :
    (inFlight fresh 1 0 0).inflight = some ⟨1, 0, 0⟩ ∧ (0 : Word).toInt ≤ 0 ∧ 0 < (1 : Word).toInt := by decide

/-- The seven clauses, each at its edge (WV1, WV6, WV4, WV11, N = 65 > SYM_CAP, WV19, WV18). -/
theorem witness_WaveResult :
    params.legal = true ∧ fresh.rateValid = false ∧ (rated 4000).rateValid = true ∧ (0 : Word).toInt ≤ 0 ∧
    (((3999 : Word).toNat : Int) < 4 * (1000 : Word).toInt) ∧
    (4 * (1000 : Word).toInt ≤ ((4000 : Word).toNat : Int) ∧ (0 : Word).toInt ≤ 0) ∧
    ((64 : Int) < ((65 : Word).toNat : Int) / (1 : Word).toInt) ∧
    (((4000 : Word).toNat : Int) / (1000 : Word).toInt ≤ 64 ∧
      (256 : Int) < ((4000 : Word).toNat : Int) / (1000 : Word).toInt * (65 : Word).toInt) ∧
    (((4000 : Word).toNat : Int) / (1000 : Word).toInt * (64 : Word).toInt ≤ 256) := by decide

/-- The six clauses, each at its edge (FS1, FS4 and FS5, FS3, FS6, FS9, FS2). -/
theorem witness_CfgFskResult :
    (0 : Word).toInt ≤ 0 ∧ (-1 : Word).toInt ≤ 0 ∧ (2000 : Word).toInt = (2000 : Word).toInt ∧
    (((8000 : Word).toNat : Int) < 4 * (3000 : Word).toInt ∧ 4 * (1000 : Word).toInt ≤ ((8000 : Word).toNat : Int)) ∧
    ((64 : Int) < ((44100 : Word).toNat : Int) / (600 : Word).toInt ∧
      ((44100 : Word).toNat : Int) / (1200 : Word).toInt ≤ 64) ∧
    (4 * (4000 : Word).toInt ≤ ((16000 : Word).toNat : Int) ∧
      ((16000 : Word).toNat : Int) / (2000 : Word).toInt ≤ 64) := by decide

/-- The five clauses, each at its edge (EB1, EB4 and EB5, EB7, EB10, EB9). -/
theorem witness_EncodeBitResult :
    fresh.symValid = false ∧ cached.symValid = true ∧ (2 : Word).toInt ≠ 0 ∧ (2 : Word).toInt ≠ 1 ∧
    (0 : Word).toInt = 0 ∧ (1 : Word).toInt = 1 ∧ (0 : Word).toInt ≤ 0 ∧
    ((256 : Int) < (cached.lenLow.toNat : Int) * (33 : Word).toInt) ∧
    ((cached.lenLow.toNat : Int) * (32 : Word).toInt ≤ 256) ∧ 0 < (32 : Word).toInt := by decide

/-- FailedCommandChangesOnlyItsCode, EveryCommandCompletes, CompletionIgnoresLaterOperands. -/
theorem witness_failed_command :
    ∃ t, completionStep (inFlight fresh 2 1000 1) = .next t ∧ t.ecode ≠ 0 ∧
      (inFlight fresh 2 1000 1).inflight = some ⟨2, 1000, 1⟩ := ⟨_, rfl, by decide, rfl⟩

/-- The host-access statements: an idle block and a busy one. -/
theorem witness_idle_and_busy : fresh.busy = false ∧ busyState.busy = true := by decide

theorem witness_ReadOnlyRegistersRefuseWrites :
    0x10 ∈ [0x10, 0x14, 0x18, 0x1C, 0x20, 0x24, 0x28, 0x34, 0x38] ∧
    0x38 ∈ [0x10, 0x14, 0x18, 0x1C, 0x20, 0x24, 0x28, 0x34, 0x38] := by decide

/-- The three clauses, at v = OUT_LEN, v = OUT_LEN + 1 and bit 31. -/
theorem witness_CursorWrite :
    Inv { cached with out := row4, outLen := 4, rdPtr := 2, host := [], turns := [] } ∧
    (4 : Word).toNat ≤ waved.outLen.toNat ∧ waved.outLen.toNat < (5 : Word).toNat ∧
    (0x80000000 : Word).getLsbD 31 = true := ⟨inv_cached_output [] [], by decide, by decide, by decide⟩

/-- Both clauses, at the last sample and at the end. -/
theorem witness_OutDataRead :
    waved.busy = false ∧ ({ waved with rdPtr := 3 } : State).rdPtr.toNat < waved.outLen.toNat ∧
    waved.outLen.toNat ≤ ({ waved with rdPtr := 4 } : State).rdPtr.toNat := by decide

theorem witness_BusyRefusesAccess :
    busyState.busy = true ∧ 0x3C < 0x40 ∧ 0x3C % 4 = 0 ∧ 0x3C ≠ 0x0C ∧ 0x00 % 4 = 0 := by decide

theorem witness_BadShapeIsRefused : 0x3F < 0x40 ∧ (3 ≠ 4 ∨ 0x00 % 4 ≠ 0) ∧ (4 ≠ 4 ∨ 0x02 % 4 ≠ 0) := by decide

theorem witness_NoResponseOutsideTheWindow :
    0x0FFF < params.blockBase ∧ params.blockBase + 0x3F < 0x1040 := by decide

theorem witness_HostCannotDisturbCommandInFlight :
    disturbing.busy = true ∧ disturbing.turns.head? = some .host ∧ (stepped disturbing).aerr = true := by
  decide +kernel

/-- AerrIsSticky, each of its cases: set by a refused write, cleared by reset, cleared by `clr_aerr`. -/
theorem witness_AerrIsSticky :
    (stepped { fresh with host := [.access ⟨.write, 0x103C, 4, 7⟩] }).aerr = true ∧
    (stepped { fresh with aerr := true, turns := [.reset] }).aerr = false ∧
    (stepped { fresh with aerr := true, host := [.access ⟨.write, 0x100C, 4, 2⟩] }).aerr = false := by
  decide +kernel

/-- RateChangesOnlyByCfgRate, CacheFixedBetweenConfigurations, OutputReplacedOnlyByCommands: a change by reset and
one by a command. -/
theorem witness_changes :
    (stepped { cached with turns := [.reset] }).sampleRate ≠ cached.sampleRate ∧
    (stepped { cached with turns := [.reset] }).symValid ≠ cached.symValid ∧
    (stepped (inFlight cached 1 8000 0)).sampleRate ≠ cached.sampleRate ∧
    (stepped (inFlight cached 1 8000 0)).symValid ≠ cached.symValid ∧
    (stepped { waved with turns := [.reset] }).outLen ≠ waved.outLen ∧
    (stepped (inFlight cached 4 1 1)).outLen ≠ cached.outLen := by decide +kernel

/-- BusyChangesOnlyByIssueAndCompletion, OperandRegistersChangeOnlyByTheHost, CursorMovesOnlyByItsWriters: a change
by the host, by a completion and by a reset. -/
theorem witness_more_changes :
    (stepped { fresh with arg0 := 4000, host := [.access ⟨.write, 0x1000, 4, 1⟩] }).busy = true ∧
    (stepped { fresh with arg0 := 4000, host := [.access ⟨.write, 0x1000, 4, 1⟩] }).cmdLast = 1 ∧
    (stepped busyState).busy = false ∧
    (stepped { busyState with turns := [.reset] }).busy = false ∧
    (stepped { busyState with turns := [.reset] }).arg0 = 0 ∧
    (stepped { waved with host := [.access ⟨.read, 0x1030, 4, 0⟩] }).rdPtr = 1 ∧
    (stepped { inFlight waved 1 8000 0 with rdPtr := 3 }).rdPtr = 0 := by decide +kernel

theorem witness_ParametersAreConstant : ∃ t, step fresh = .next t := ⟨_, rfl⟩

/-- SampleIsTruncatedSine, SampleLaws and SamplePrecisionMargin, at the ends of their ranges. -/
theorem witness_sample_ranges :
    4 ≤ 4 ∧ 4 ≤ 2 ^ 32 - 1 ∧ 2 ^ 32 - 1 < 2 ^ 32 ∧ 4 ≤ 8192 ∧ 8191 < 8192 ∧ 5 % 4 ≠ 0 ∧ 6 % 2 = 0 ∧ 8 % 4 = 0 := by
  decide

/-- The second clause of SamplePrecisionMargin, at the exact value 0, which it includes. -/
theorem witness_SamplePrecisionMargin :
    |(0 : ℝ) - exactSine 0 4| < (66 : ℝ) / 10 ^ 9 ∧ exactSine 0 4 ≠ 127 ∧ exactSine 0 4 ≠ -127 := by
  have h : exactSine 0 4 = 0 := by simp [exactSine]
  rw [h]
  norm_num

theorem witness_SymbolIsOneCycleOfWave :
    (rated 16000).params.legal = true ∧ ∃ t, exec .cfgFsk (inFlight (rated 16000) 3 2000 4000) = .next t ∧
      t.ecode = 0 ∧ t.lenLow = 8 := ⟨rfl, _, rfl, by decide +kernel, by decide +kernel⟩

theorem witness_LowAndHighAreLabels :
    ∃ t, exec .cfgFsk (inFlight (rated 8000) 3 1001 1100) = .next t ∧ t.ecode = 0 ∧ t.lenLow = 7 ∧ t.lenHigh = 7 :=
  ⟨_, rfl, by decide +kernel, by decide +kernel, by decide +kernel⟩

theorem witness_EncodedOutputByIndex :
    Inv { cached with out := row4, outLen := 4, rdPtr := 2, host := [], turns := [] } ∧ cached.symValid = true ∧
    ∃ t, exec .encodeBit (inFlight { cached with out := row4, outLen := 4, rdPtr := 2, host := [], turns := [] } 4 1 64)
      = .next t ∧ t.ecode = 0 := ⟨inv_cached_output [] [], rfl, _, rfl, by decide +kernel⟩

/-- All hypotheses at once, for each bit, in a state with a valid cache and output. Bit 0, L = 8: counts 16 + 16 and a
count of 32 fill OUT_CAP, and eight fit. Bit 1, L = 4: counts 32 + 32 and a count of 64 fill it, and eight fit. -/
theorem witness_ReplicationLaws :
    Inv { cached with out := row4, outLen := 4, rdPtr := 2, host := [], turns := [] } ∧ cached.symValid = true ∧
    (cached.freqLow = 2000 ∧ cached.lenLow.toNat = 8 ∧ (32 : Word).toInt = (16 : Word).toInt + (16 : Word).toInt ∧
      0 < (16 : Word).toInt ∧ (8 : Int) * (32 : Word).toInt ≤ cached.params.outCap ∧ 8 * 8 ≤ cached.params.outCap) ∧
    (cached.freqHigh = 4000 ∧ cached.lenHigh.toNat = 4 ∧ (64 : Word).toInt = (32 : Word).toInt + (32 : Word).toInt ∧
      0 < (32 : Word).toInt ∧ (4 : Int) * (64 : Word).toInt ≤ cached.params.outCap ∧ 4 * 8 ≤ cached.params.outCap) :=
  ⟨inv_cached_output [] [], rfl, by decide, by decide⟩

theorem witness_AssembledValues :
    -(2 ^ 31 : Int) ≤ -(2 ^ 31) ∧ (2 ^ 31 - 1 : Int) < 2 ^ 31 ∧ (0 : Int) ≤ 2 ^ 32 - 1 ∧ 0xFFFFFFFF < 16 ^ 8 := by
  decide

end Sys2Proof.Tests
end

section
/-! What a step can change, told by whose turn it is: the fields a host step leaves alone, the three ends of the
block's turn, and the one access behind a change of BUSY or a cleared AERR. -/

namespace Sys2Proof.Machine

/-- `step_cases` with the turn that each case belongs to. -/
theorem step_cases_by_turn {s t : State} (h : step s = .next t) :
    (nextTurn s = .host ∧ t = hostStep (dropTurn s)) ∨
    (nextTurn s = .block ∧ completionStep (dropTurn s) = .next t) ∨
    (nextTurn s = .reset ∧ t = platformReset (dropTurn s)) := by
  rw [step] at h
  rcases hn : nextTurn s with _ | _ | _ | a <;> rw [hn, takeTurn] at h
  · exact .inl ⟨rfl, by cases h; rfl⟩
  · exact .inr (.inl ⟨rfl, h⟩)
  · exact .inr (.inr ⟨rfl, by cases h; rfl⟩)
  · cases h

/-- The only fields that a host step can change. -/
theorem hostStep_frame (s : State) :
    hostStep s =
      { s with cmdLast := (hostStep s).cmdLast, arg0 := (hostStep s).arg0, arg1 := (hostStep s).arg1,
               busy := (hostStep s).busy, aerr := (hostStep s).aerr, ecode := (hostStep s).ecode,
               rdPtr := (hostStep s).rdPtr, inflight := (hostStep s).inflight, host := (hostStep s).host,
               reads := (hostStep s).reads, draws := (hostStep s).draws } := by
  obtain ⟨t, p, r, d, ht, e⟩ := hostStep_cases s
  rw [e]
  cases ht <;> rfl

@[simp] theorem hostStep_params (s : State) : (hostStep s).params = s.params := by
  rw [hostStep_frame]
@[simp] theorem hostStep_sampleRate (s : State) : (hostStep s).sampleRate = s.sampleRate := by
  rw [hostStep_frame]
@[simp] theorem hostStep_rateValid (s : State) : (hostStep s).rateValid = s.rateValid := by
  rw [hostStep_frame]
@[simp] theorem hostStep_out (s : State) : (hostStep s).out = s.out := by
  rw [hostStep_frame]
@[simp] theorem hostStep_outLen (s : State) : (hostStep s).outLen = s.outLen := by
  rw [hostStep_frame]

/-- The host's turn is one access, or it touches nothing of the block: the host is idle or reads STATUS in a poll. -/
theorem hostStep_access_or_quiet (s : State) :
    (∃ a rest, s.host = .access a :: rest ∧ hostStep s = performAccess a { s with host := rest }) ∨
    ∃ p r, hostStep s = { s with host := p, reads := r } := by
  rw [hostStep]
  split
  · exact .inr ⟨s.host, s.reads, rfl⟩
  · exact .inl ⟨_, _, ‹_›, rfl⟩
  · rw [pollStatus, readWindow_status]
    split
    · exact .inr ⟨s.host, _, rfl⟩
    · exact .inr ⟨_, _, rfl⟩

theorem Reg.off_of_at? {off : Nat} {r : Reg} (h : Reg.at? off = some r) : off = r.off := by
  rw [Reg.at?] at h
  have hbeq := List.find?_some h
  exact (beq_iff_eq.mp hbeq).symm

/-- A write is refused, or it is a 32-bit write at a register's offset while BUSY = 0 (R160). -/
theorem writeWindow_refused_or_reg (off n : Nat) (v : Word) (s : State) :
    writeWindow off n v s = accessError s ∨
    (s.busy = false ∧ n = 4 ∧ ∃ r : Reg, off = r.off ∧ writeWindow off n v s = writeReg v s r) := by
  rw [writeWindow]
  split
  · exact .inl rfl
  · rename_i hshape
    split
    · exact .inl rfl
    · rename_i hbusy
      split
      · rename_i r hr
        have hn : n = 4 := by
          by_contra hn
          simp [badShape, hn] at hshape
        exact .inr ⟨by simpa using hbusy, hn, r, Reg.off_of_at? hr, rfl⟩
      · exact .inl rfl

/-- No read changes BUSY or clears AERR. -/
theorem readWindow_busy_aerr (off n : Nat) (s : State) :
    (readWindow off n s).2.busy = s.busy ∧ (s.aerr = true → (readWindow off n s).2.aerr = true) := by
  rw [readWindow]
  split
  · simp
  · split
    · simp
    · split
      · rename_i r _
        rcases readReg_cases s r with ⟨_, h⟩ | ⟨_, h⟩ <;> rw [h]
        · exact ⟨rfl, id⟩
        · rw [readOutData]
          split <;> simp
      · simp

/-- An access that changes BUSY or clears AERR is an accepted write of a register (R160). -/
theorem performAccess_keeps_or_writes (a : Access) (s : State) :
    ((performAccess a s).busy = s.busy ∧ (s.aerr = true → (performAccess a s).aerr = true)) ∨
    (s.busy = false ∧ ∃ r : Reg, a = ⟨.write, s.params.blockBase + r.off, 4, a.v⟩ ∧
      performAccess a s = writeReg a.v s r) := by
  obtain ⟨dir, addr, n, v⟩ := a
  cases dir with
  | read =>
    left
    rw [performAccess]
    by_cases hw : inWindow s.params addr = true <;> simp only [hw, if_true]
    · exact readWindow_busy_aerr _ _ s
    · exact ⟨rfl, id⟩
  | write =>
    rw [performAccess]
    by_cases hw : inWindow s.params addr = true <;> simp only [hw, if_true]
    · rcases writeWindow_refused_or_reg (addr - s.params.blockBase) n v s with h | ⟨hb, hn, r, hr, h⟩ <;> rw [h]
      · exact .inl ⟨rfl, fun _ => rfl⟩
      · have hle : s.params.blockBase ≤ addr := by
          simp only [inWindow, Bool.and_eq_true, decide_eq_true_eq] at hw
          exact hw.1
        have haddr : addr = s.params.blockBase + r.off := by omega
        exact .inr ⟨hb, r, by rw [haddr, hn], rfl⟩
    · exact .inl ⟨rfl, id⟩

/-- Of the register writes, only one to STATUS with bit 1 set clears AERR (R166). -/
theorem writeReg_clears_aerr {v : Word} {s : State} {r : Reg} (h : s.aerr = true)
    (hw : (writeReg v s r).aerr ≠ true) : r = .status ∧ v.getLsbD 1 = true := by
  cases r
  case status =>
    rw [writeReg, writeStatus] at hw
    split at hw
    · exact ⟨rfl, ‹_›⟩
    · exact absurd h hw
  case rdPtr =>
    rw [writeReg, writeRdPtr] at hw
    split at hw
    · exact absurd h hw
    · exact absurd rfl hw
  all_goals simp [writeReg, h] at hw

/-- Of the register writes, only one to CMD changes BUSY (R161). -/
theorem writeReg_changes_busy {v : Word} {s : State} {r : Reg} (h : (writeReg v s r).busy ≠ s.busy) : r = .cmd := by
  cases r
  case cmd => rfl
  case status =>
    rw [writeReg, writeStatus] at h
    split at h <;> simp at h
  case rdPtr =>
    rw [writeReg, writeRdPtr] at h
    split at h <;> simp at h
  all_goals simp [writeReg] at h

/-- A host step that clears AERR is the STATUS write of R166. -/
theorem hostStep_clears_aerr {s : State} (h : s.aerr = true) (hc : (hostStep s).aerr ≠ true) :
    s.busy = false ∧ ∃ v rest, v.getLsbD 1 = true ∧
      s.host = .access ⟨.write, s.params.blockBase + Reg.status.off, 4, v⟩ :: rest := by
  rcases hostStep_access_or_quiet s with ⟨a, rest, hhost, e⟩ | ⟨p, r, e⟩ <;> rw [e] at hc
  · rcases performAccess_keeps_or_writes a { s with host := rest } with ⟨_, hk⟩ | ⟨hb, r, ha, hw⟩
    · exact absurd (hk h) hc
    · rw [hw] at hc
      obtain ⟨rfl, hv⟩ := writeReg_clears_aerr (s := { s with host := rest }) h hc
      exact ⟨hb, a.v, rest, hv, by rw [hhost]; exact congrArg (fun x => HostOp.access x :: rest) ha⟩
  · exact absurd h hc

/-- A host step that changes BUSY is the CMD write that issues a command (R161). -/
theorem hostStep_changes_busy {s : State} (h : (hostStep s).busy ≠ s.busy) :
    ∃ v rest, s.host = .access ⟨.write, s.params.blockBase + Reg.cmd.off, 4, v⟩ :: rest ∧
      hostStep s = issue v { s with host := rest } := by
  rcases hostStep_access_or_quiet s with ⟨a, rest, hhost, e⟩ | ⟨p, r, e⟩ <;> rw [e] at h
  · rcases performAccess_keeps_or_writes a { s with host := rest } with ⟨hk, _⟩ | ⟨_, r, ha, hw⟩
    · exact absurd hk h
    · rw [hw] at h
      obtain rfl := writeReg_changes_busy (s := { s with host := rest }) h
      exact ⟨a.v, rest, by rw [hhost]; exact congrArg (fun x => HostOp.access x :: rest) ha, by rw [e, hw]; rfl⟩
  · exact absurd rfl h

/-- A host step that moves the cursor does so while BUSY = 0, and within OUT_LEN (R170, R171). -/
theorem hostStep_moves_rdPtr {s : State} (h : (hostStep s).rdPtr ≠ s.rdPtr) :
    s.busy = false ∧ u32 (hostStep s).rdPtr ≤ u32 s.outLen := by
  obtain ⟨t, p, r, d, ht, e⟩ := hostStep_cases s
  rw [e] at h ⊢
  cases ht
  case moved v hb hv => exact ⟨hb, hv⟩
  case advanced hb hlt =>
    refine ⟨hb, ?_⟩
    simp only [u32] at hlt ⊢
    bv_omega
  all_goals exact absurd rfl h

/-- Only a command's own word decodes to it (R82). -/
theorem eq_encode_of_decodeWord {w : Word} {i : Instr} (h : decodeWord w = .ok i) : w = encode i := by
  rw [decodeWord] at h
  split at h
  · cases h
  · rename_i hr
    rw [word_eq_fields w, not_not.mp hr]
    generalize opcodeField w = op at h
    rw [decodeOpcode] at h
    split_ifs at h with h1 h2 h3 h4 <;> cases h <;> subst op <;> rfl

/-- The block's turn: it passes, or the command ends with an error code alone, or with its effects. -/
theorem completionStep_next {s t : State} (h : completionStep s = .next t) :
    t = s ∨ (∃ c, c ≠ Code.ok ∧ t = cmdError c s) ∨
    ∃ q i, s.inflight = some q ∧ q.c = encode i ∧ codeOf i q s = .ok ∧ t = finishOk (effectOf i q s) := by
  rcases completionStep_cases s with ⟨_, e⟩ | ⟨q, _, _, _, e⟩ | ⟨q, i, hq, hi, e⟩ <;> rw [e] at h <;> cases h
  · exact .inl rfl
  · exact .inr (.inl ⟨_, by decide, rfl⟩)
  · by_cases hc : codeOf i q s = .ok
    · exact .inr (.inr ⟨q, i, hq, eq_encode_of_decodeWord hi, hc, finish_ok hc _ _⟩)
    · exact .inr (.inl ⟨_, hc, finish_error hc _ _⟩)

@[simp] theorem effectOf_params (i : Instr) (q : Inflight) (s : State) : (effectOf i q s).params = s.params := by
  cases i <;> rfl
@[simp] theorem effectOf_aerr (i : Instr) (q : Inflight) (s : State) : (effectOf i q s).aerr = s.aerr := by
  cases i <;> rfl

/-- Every command that succeeds puts the cursor at 0 (R38). -/
@[simp] theorem effectOf_rdPtr (i : Instr) (q : Inflight) (s : State) : (effectOf i q s).rdPtr = 0 := by
  cases i <;> rfl

/-- No completion changes AERR, and none the parameters (R193, R194). -/
theorem completionStep_aerr_params {s t : State} (h : completionStep s = .next t) :
    t.aerr = s.aerr ∧ t.params = s.params := by
  rcases completionStep_next h with rfl | ⟨_, _, rfl⟩ | ⟨_, _, _, _, _, rfl⟩ <;> simp

/-- Only CFG_RATE writes the rate (R31). -/
theorem effectOf_rate {i : Instr} {q : Inflight} {s : State}
    (h : (effectOf i q s).sampleRate ≠ s.sampleRate ∨ (effectOf i q s).rateValid ≠ s.rateValid) :
    i = .cfgRate := by
  cases i
  case cfgRate => rfl
  all_goals simp [effectOf, waveEffect, cfgFskEffect, encodeBitEffect] at h

end Sys2Proof.Machine
end

section
/-! The invariant of R45 along a run: each effect of the host, each command's effects and each end of a completion
keep it, so every step does, and with reset every run. -/

namespace Sys2Proof.Machine

theorem Params.caps_of_legal {p : Params} (h : p.legal = true) : p.symCap ≤ p.outCap ∧ p.outCap ≤ 2 ^ 31 - 1 := by
  simp only [Params.legal, Bool.and_eq_true, decide_eq_true_eq] at h
  omega

theorem Code.bits_le (c : Code) : c.bits ≤ 0xB#4 := by
  cases c <;> decide

theorem S_bounds (i N : Nat) : -127 ≤ S i N ∧ S i N ≤ 127 := by
  have := level_le (quarterTurn i N) N
  rw [S]
  split <;> omega

/-- A stored sample reads back as the value of S (R101). -/
theorem sample_toInt (i N : Nat) : (sample i N).toInt = S i N := by
  have := S_bounds i N
  exact BitVec.toInt_ofInt_eq_self (by decide) (by omega) (by omega)

/-- The byte 0x80 is never produced (R101). -/
theorem sample_ne_0x80 (i N : Nat) : sample i N ≠ 0x80#8 := by
  intro h
  have hS : S i N = -128 := by
    rw [← sample_toInt, h]
    decide
  have := S_bounds i N
  omega

theorem ArrayOk.fill {cap n : Nat} {m : Memory} (h : ArrayOk cap m) (hn : n ≤ cap) (f : Nat → Byte) :
    ArrayOk cap (m.fill n f) :=
  ⟨Memory.wf_fill h.canonical n f, Memory.bounded_fill h.bounded hn f⟩

theorem ArrayOk.nil (cap : Nat) : ArrayOk cap [] := ⟨List.Pairwise.nil, fun _ h => nomatch h⟩

/-- One cycle at a frequency that passes the checks of CFG_FSK is a valid symbol (R131). -/
theorem SymbolOk.of_checks {rate f : Word} {cap : Nat} (m : Memory) (hf : 0 < s32 f)
    (hn : belowNyquist rate f = false) (hfit : samplesPerCycle rate f ≤ cap) (hcap : cap < 2 ^ 32) :
    SymbolOk rate f (BitVec.ofNat 32 (samplesPerCycle rate f)) cap
      (m.fill (samplesPerCycle rate f) fun i => sample i (samplesPerCycle rate f)) := by
  have hu := u32_of_pos hf
  have hlen : u32 (BitVec.ofNat 32 (samplesPerCycle rate f)) = samplesPerCycle rate f := u32_ofNat (by omega)
  rw [belowNyquist, decide_eq_false_iff_not] at hn
  refine ⟨by omega, by omega, ?_, ?_, fun i hi => ?_⟩
  · rw [hlen, samplesPerCycle, magnitude_of_pos hf]
  · rwa [hlen]
  · rw [hlen] at hi ⊢
    rw [Memory.read_fill, if_pos hi]

/-- A valid symbol has at least one sample, and none of them is 0x80. -/
theorem SymbolOk.sampleAt_ne {rate f len : Word} {cap : Nat} {m : Memory} (h : SymbolOk rate f len cap m)
    (a : SampleArray) (k : Nat) : sampleAt a m (k % u32 len) ≠ 0x80#8 := by
  have hpos : 0 < u32 len := by
    rw [h.length]
    exact Nat.div_pos (by have := h.nyquist; omega) h.positive
  rw [sampleAt_of_read (h.contents _ (Nat.mod_lt k hpos))]
  exact sample_ne_0x80 _ _

namespace Inv
variable {s : State} (hi : Inv s)
include hi

/-- The invariant does not read the fields that are not the block's. -/
theorem environment (p : List HostOp) (ts : List Turn) (r : List Word) (d : Nat) :
    Inv { s with host := p, turns := ts, reads := r, draws := d } := { hi with }

theorem hostEffect {t : State} (h : HostEffect s t) : Inv t := by
  cases h with
  | nothing => exact hi
  | refused => exact { hi with }
  | cleared _ => exact { hi with }
  | issued v _ =>
    exact { hi with
      busy_iff := rfl
      latched := fun q hq => by cases hq; rfl
      ecode_busy := fun _ => rfl
      ecode_le := Code.bits_le .ok }
  | arg0 v hb =>
    have hidle : s.inflight = none := by simpa [hb] using hi.busy_iff
    exact { hi with latched := fun q hq => by simp [hidle] at hq }
  | arg1 v hb =>
    have hidle : s.inflight = none := by simpa [hb] using hi.busy_iff
    exact { hi with latched := fun q hq => by simp [hidle] at hq }
  | moved v _ hv => exact { hi with cursor := ⟨hv, hi.cursor.2⟩ }
  | advanced _ hlt =>
    have hle : u32 (s.rdPtr + 1) ≤ u32 s.outLen := by
      simp only [u32] at hlt ⊢
      bv_omega
    exact { hi with cursor := ⟨hle, hi.cursor.2⟩ }

theorem hostStep : Inv (hostStep s) := by
  obtain ⟨t, p, r, d, ht, e⟩ := hostStep_cases s
  rw [e]
  exact (hi.hostEffect ht).environment p t.turns r d

/-- A command that ends, with any code of R192, keeps the invariant. -/
theorem ended (c : Code) : Inv (ended s c.bits) :=
  { hi with
    busy_iff := rfl
    latched := fun _ hq => nomatch hq
    ecode_busy := fun hb => nomatch hb
    ecode_le := Code.bits_le c }

theorem emptyOutput : Inv (emptyOutput s) :=
  { hi with
    cursor := ⟨Nat.le_refl 0, Nat.zero_le _⟩
    out_valid := fun _ hk => absurd hk (Nat.not_lt_zero _) }

theorem produce {n : Nat} (f : Nat → Byte) (hn : n ≤ s.params.outCap) (hf : ∀ k, f k ≠ 0x80#8) :
    Inv (produce n f s) := by
  have hcap := Params.caps_of_legal hi.legal
  obtain ⟨hlen, hptr, _, hread⟩ := produce_spec s f (by omega : n < 2 ^ 32)
  exact { hi with
    cursor := ⟨Nat.zero_le _, by rw [hlen]; exact hn⟩
    out_valid := fun k hk => ⟨f k, hread k (hlen ▸ hk), hf k⟩
    out_array := (ArrayOk.nil _).fill hn f }

theorem cfgRateEffect {q : Inflight} (h : cfgRateCode q = .ok) : Inv (cfgRateEffect q s) := by
  have hpos := cfgRateCode_ok.mp h
  have hu := u32_of_pos hpos
  refine emptyOutput (s := { s with sampleRate := q.a0, rateValid := true, symValid := false,
                                    freqLow := 0, freqHigh := 0, lenLow := 0, lenHigh := 0 }) ?_
  exact { hi with
    rate_off := fun hr => nomatch hr
    rate_on := fun _ => ⟨by simp only; omega, u32_lt_of_pos hpos⟩
    sym_off := fun _ => ⟨rfl, rfl, rfl, rfl⟩
    sym_low := fun hv => nomatch hv
    sym_high := fun hv => nomatch hv
    sym_ne := fun hv => nomatch hv }

theorem waveEffect {q : Inflight} (h : waveCode q s = .ok) : Inv (waveEffect q s) := by
  obtain ⟨_, _, _, _, _, hfit⟩ := waveCode_ok.mp h
  exact hi.produce _ hfit fun k => sample_ne_0x80 _ _

theorem cfgFskEffect {q : Inflight} (h : cfgFskCode q s = .ok) : Inv (cfgFskEffect q s) := by
  obtain ⟨hrate, hl, hh, hne, hnl, hnh, hcl, hch⟩ := cfgFskCode_ok.mp h
  have hcap := Params.caps_of_legal hi.legal
  have h32 : s.params.symCap < 2 ^ 32 := by omega
  refine emptyOutput
    (s := { s with symLow := s.symLow.fill (samplesPerCycle s.sampleRate q.a0) _,
                   symHigh := s.symHigh.fill (samplesPerCycle s.sampleRate q.a1) _,
                   freqLow := q.a0, freqHigh := q.a1, lenLow := _, lenHigh := _, symValid := true }) ?_
  exact { hi with
    rate_off := fun hr => by simp [hrate] at hr
    sym_off := fun hv => nomatch hv
    sym_low := fun _ => SymbolOk.of_checks s.symLow hl hnl hcl h32
    sym_high := fun _ => SymbolOk.of_checks s.symHigh hh hnh hch h32
    sym_ne := fun _ => hne
    low_array := hi.low_array.fill hcl _
    high_array := hi.high_array.fill hch _ }

theorem encodeBitEffect {q : Inflight} (h : encodeBitCode q s = .ok) : Inv (encodeBitEffect q s) := by
  obtain ⟨hv, _, _, hfit⟩ := encodeBitCode_ok.mp h
  refine hi.produce _ hfit fun k => ?_
  rw [symbolAt, symbolLen]
  split
  · exact (hi.sym_low hv).sampleAt_ne .symLow k
  · exact (hi.sym_high hv).sampleAt_ne .symHigh k

theorem effectOf {i : Instr} {q : Inflight} (h : codeOf i q s = .ok) : Inv (effectOf i q s) := by
  cases i with
  | cfgRate => exact hi.cfgRateEffect h
  | wave => exact hi.waveEffect h
  | cfgFsk => exact hi.cfgFskEffect h
  | encodeBit => exact hi.encodeBitEffect h

theorem completionStep {t : State} (h : completionStep s = .next t) : Inv t := by
  rcases completionStep_next h with rfl | ⟨c, _, rfl⟩ | ⟨q, i, _, _, hc, rfl⟩
  · exact hi
  · exact hi.ended c
  · exact (hi.effectOf hc).ended .ok

end Inv

/-- The invariant right after reset, in every legal configuration (R220). -/
theorem Inv.initial {p : Params} (h : p.legal = true) : Inv (State.initial p) where
  legal := h
  busy_iff := rfl
  latched := fun _ hq => nomatch hq
  ecode_busy := fun hb => nomatch hb
  rate_off := fun _ => ⟨rfl, rfl⟩
  rate_on := fun hr => nomatch hr
  sym_off := fun _ => ⟨rfl, rfl, rfl, rfl⟩
  sym_low := fun hv => nomatch hv
  sym_high := fun hv => nomatch hv
  sym_ne := fun hv => nomatch hv
  cursor := ⟨Nat.le_refl 0, Nat.zero_le _⟩
  ecode_le := Code.bits_le .ok
  out_valid := fun _ hk => absurd hk (Nat.not_lt_zero _)
  low_array := ArrayOk.nil _
  high_array := ArrayOk.nil _
  out_array := ArrayOk.nil _

/-- **Every step of every agent keeps the invariant** (R45). -/
theorem Inv.step {s t : State} (hi : Inv s) (h : step s = .next t) : Inv t := by
  have hd : Inv (dropTurn s) := hi.environment s.host s.turns.tail s.reads s.draws
  rcases step_cases h with rfl | hc | rfl
  · exact hd.hostStep
  · exact hd.completionStep hc
  · exact (Inv.initial hi.legal).environment s.host s.turns.tail s.reads s.draws

/-- A run from a state that meets the invariant stays in it. -/
theorem Inv.run {k : Nat} {s t : State} (hi : Inv s) (h : Host.Core.run core k s = .next t) : Inv t := by
  induction k generalizing s with
  | zero =>
    rw [run_zero] at h
    cases h
    exact hi
  | succ k ih =>
    obtain ⟨u, hu, hrun⟩ := run_succ_next h
    exact ih (hi.step hu) hrun

end Sys2Proof.Machine
end

section
/-! The statements about the state over every step (10_state.md), each from the laws above by whose turn it is. -/

open Sys2Proof Sys2Proof.Machine

/-- Settles O38, by whose turn it is; the host's clearing access is `hostStep_clears_aerr`. -/
theorem aerrIsSticky : Obligations.AerrIsSticky := by
  intro s t h hne
  rcases step_cases_by_turn h with ⟨hn, rfl⟩ | ⟨_, hc⟩ | ⟨hn, rfl⟩
  · by_cases ha : (hostStep (dropTurn s)).aerr = true
    · refine .inl ⟨ha, hn, ?_⟩
      rcases hostStep_access_or_quiet (dropTurn s) with ⟨a, rest, hhost, _⟩ | ⟨p, r, e⟩
      · exact ⟨a, rest, hhost⟩
      · exact absurd (congrArg State.aerr e) hne
    · have hs : (dropTurn s).aerr = true := by
        simpa [Bool.eq_false_of_not_eq_true ha] using hne
      exact .inr (.inr ⟨by simpa using ha, hn, hostStep_clears_aerr (s := dropTurn s) hs ha⟩)
  · exact absurd (completionStep_aerr_params hc).1 hne
  · exact .inr (.inl ⟨rfl, hn⟩)

/-- Settles O39: of the three ends of a completion only the success of CFG_RATE writes the rate. -/
theorem rateChangesOnlyByCfgRate : Obligations.RateChangesOnlyByCfgRate := by
  intro s t h hne
  rcases step_cases_by_turn h with ⟨_, rfl⟩ | ⟨hn, hc⟩ | ⟨hn, rfl⟩
  · simp at hne
  · rcases completionStep_next hc with rfl | ⟨_, _, rfl⟩ | ⟨q, i, hq, hw, _, rfl⟩
    · simp at hne
    · simp at hne
    · obtain rfl : i = .cfgRate := effectOf_rate hne
      exact .inr ⟨hn, rfl, rfl, q, hq, hw, rfl⟩
  · exact .inl hn

/-- Settles O41: a host step keeps the output, a failing completion too, and every success puts the cursor at 0. -/
theorem outputReplacedOnlyByCommands : Obligations.OutputReplacedOnlyByCommands := by
  intro s t h hne
  rcases step_cases_by_turn h with ⟨_, rfl⟩ | ⟨hn, hc⟩ | ⟨hn, rfl⟩
  · simp at hne
  · rcases completionStep_next hc with rfl | ⟨_, _, rfl⟩ | ⟨q, i, hq, hw, _, rfl⟩
    · simp at hne
    · simp at hne
    · have hword : 1 ≤ q.c.toNat ∧ q.c.toNat ≤ 4 := by
        rw [hw]
        cases i <;> decide
      exact ⟨by simp, .inr ⟨hn, rfl, q, hq, hword⟩⟩
  · exact ⟨rfl, .inl hn⟩

/-- Settles O42: a host step that changes BUSY is the issuing write, and a completion or a reset leaves BUSY at 0. -/
theorem busyChangesOnlyByIssueAndCompletion : Obligations.BusyChangesOnlyByIssueAndCompletion := by
  intro s t h hne
  rcases step_cases_by_turn h with ⟨hn, rfl⟩ | ⟨hn, hc⟩ | ⟨hn, rfl⟩
  · obtain ⟨v, rest, hhost, e⟩ := hostStep_changes_busy (s := dropTurn s) hne
    rw [e]
    exact .inl ⟨rfl, hn, v, rest, hhost, rfl, rfl, rfl⟩
  · rcases completionStep_next hc with rfl | ⟨_, _, rfl⟩ | ⟨_, _, _, _, _, rfl⟩
    · simp at hne
    · exact .inr ⟨rfl, .inl hn⟩
    · exact .inr ⟨rfl, .inl hn⟩
  · exact .inr ⟨rfl, .inr hn⟩

/-- Settles O44, by whose turn it is; the host's moves are `hostStep_moves_rdPtr`. -/
theorem cursorMovesOnlyByItsWriters : Obligations.CursorMovesOnlyByItsWriters := by
  intro s t h hne
  rcases step_cases_by_turn h with ⟨hn, rfl⟩ | ⟨hn, hc⟩ | ⟨hn, rfl⟩
  · obtain ⟨hb, hle⟩ := hostStep_moves_rdPtr (s := dropTurn s) hne
    exact .inr (.inr ⟨hn, hb, by simp, by rw [hostStep_outLen]; exact hle⟩)
  · rcases completionStep_next hc with rfl | ⟨_, _, rfl⟩ | ⟨_, _, _, _, _, rfl⟩
    · simp at hne
    · simp at hne
    · exact .inr (.inl ⟨hn, rfl, by simp⟩)
  · exact .inl ⟨hn, rfl⟩

/-- Settles O45, by whose turn it is. -/
theorem parametersAreConstant : Obligations.ParametersAreConstant := by
  intro s t h
  rcases step_cases_by_turn h with ⟨_, rfl⟩ | ⟨_, hc⟩ | ⟨_, rfl⟩
  · simp
  · exact (completionStep_aerr_params hc).2
  · rfl

/-- Settles O57, by the read rule of SYM_SIZE and the two branches of the maximum. -/
theorem symSizeIsLargestSymbol : Obligations.SymSizeIsLargestSymbol := by
  intro s hb
  refine ⟨symSize s, readAt_reg hb .symSize, fun hv => by simp [symSize, hv], fun hv => ?_⟩
  by_cases hle : s.lenLow.toNat ≤ s.lenHigh.toNat
  · have e : symSize s = s.lenHigh := by simp [symSize, hv, hle]
    exact ⟨.inr e, by rw [e]; exact hle, by rw [e]⟩
  · have e : symSize s = s.lenLow := by simp [symSize, hv, hle]
    exact ⟨.inl e, by rw [e], by rw [e]; omega⟩

/-- Settles O48, by induction on the run: reset meets the invariant, and every step keeps it. -/
theorem reachableStatesMeetInv : Obligations.ReachableStatesMeetInv := by
  intro p program interleaving k t hp hrun
  exact ((Inv.initial hp).environment program interleaving [] 0).run hrun
end

section
/-! What the encoding statements rest on: the decoder rejects every illegal word (R83), a rejected word completes
with ILLEGAL_CMD, and one pseudo-instruction assembles line by line. -/

namespace Sys2Proof

/-- Every command has the encoding of its row of R82. -/
theorem Laws.Encoding.all (i : Instr) : Laws.Encoding.Statement i := by
  cases i with
  | cfgRate => exact Laws.Encoding.cfgRate
  | wave => exact Laws.Encoding.wave
  | cfgFsk => exact Laws.Encoding.cfgFsk
  | encodeBit => exact Laws.Encoding.encodeBit

/-- A command's own word decodes to it (R82). -/
@[simp] theorem decodeWord_encode (i : Instr) : decodeWord (encode i) = .ok i := by
  obtain ⟨_, _, hdecode⟩ := Laws.Encoding.all i
  exact hdecode

namespace Machine

/-- An illegal word is no command's word: none of the four falls into a class of R83. -/
theorem ne_encode_of_illegal {v : Word}
    (h : v.extractLsb' 8 24 ≠ 0 ∨ v.extractLsb' 0 8 = 0 ∨ 0x05#8 ≤ v.extractLsb' 0 8) (i : Instr) : v ≠ encode i := by
  rintro rfl
  revert h
  cases i <;> decide

/-- A latched word that is no command's word completes with ILLEGAL_CMD, and with no other effect (R83, R193). -/
theorem completionStep_of_ne_encode {s : State} {q : Inflight} (hq : s.inflight = some q)
    (hne : ∀ i, q.c ≠ encode i) : completionStep s = .next (cmdError .illegalCmd s) := by
  rcases completionStep_cases s with ⟨hnone, _⟩ | ⟨_, _, _, _, e⟩ | ⟨q', i, hq', hd, _⟩
  · simp [hq] at hnone
  · exact e
  · obtain rfl : q = q' := Option.some.inj (hq.symm.trans hq')
    exact absurd (eq_encode_of_decodeWord hd) (hne i)

@[simp] theorem assemble_singleton (base : Nat) (p : Pseudo) :
    assemble base [p] = p.expand.map (Line.assemble base) := by
  rw [assemble, List.flatMap_singleton]

end Machine

/-- A decimal of the unsigned range assembles to itself (R86). -/
theorem Value.toNat_bits_dec {z : Int} (h0 : 0 ≤ z) (hz : z < 2 ^ 32) : ((Value.dec z).bits.toNat : Int) = z := by
  rw [Value.bits, BitVec.toNat_ofInt, Int.toNat_of_nonneg (Int.emod_nonneg _ (by decide))]
  exact Int.emod_eq_of_lt h0 hz

end Sys2Proof
end

section
/-! The encoding statements (30_encoding.md): illegal command words, and the host assembly of R86 and R87. -/

open Sys2Proof Sys2Proof.Machine

/-- Settles O4: the issue is the write rule of CMD, which looks at no field of the word; the completion finds a word
that is no command's. -/
theorem illegalWordsIssueAndFail : Obligations.IllegalWordsIssueAndFail := by
  intro v hv
  refine ⟨fun s hb => ?_, fun s a0 a1 hq => ?_⟩
  · exact writeAt_reg hb v .cmd
  · exact completionStep_of_ne_encode hq (ne_encode_of_illegal hv)

/-- Settles O59, one form of R86 after the other. -/
theorem assembledValues : Obligations.AssembledValues := by
  refine ⟨fun z hlo hhi => ?_, fun z h0 hz => ?_, fun n hn => ?_, fun i => ?_⟩
  · exact BitVec.toInt_ofInt_eq_self (by decide) hlo hhi
  · exact Value.toNat_bits_dec h0 (by omega)
  · exact u32_ofNat (by omega)
  · exact decodeWord_encode i

/-- Settles O60: every expansion but `drain` is a fixed list of lines, and `drain` maps over its copies. -/
theorem pseudoInstructionsExpand : Obligations.PseudoInstructionsExpand := by
  intro base n x y
  refine ⟨rfl, rfl, rfl, rfl, rfl, rfl, ?_, rfl⟩
  rw [assemble_singleton, Pseudo.expand, List.map_replicate]
  rfl
end

section
/-! What the statements of CFG_RATE and WAVE rest on: how a command in flight ends once its code is known, and the
checks of WAVE on the exact integers of R107. -/

namespace Sys2Proof.Machine

/-- A failing check ends the command with its code, and with no other effect (R193). -/
theorem exec_of_error {i : Instr} {s : State} {q : Inflight} {c : Code} (hq : s.inflight = some q)
    (hc : codeOf i q s = c) (hne : c ≠ .ok) : exec i s = .next (ended s c.bits) := by
  rw [exec_eq i hq, hc, finish_error hne]
  rfl

/-- With every check passed the command ends with its effects (R194). -/
theorem exec_of_ok {i : Instr} {s : State} {q : Inflight} (hq : s.inflight = some q) (hc : codeOf i q s = .ok) :
    exec i s = .next (finishOk (effectOf i q s)) := by
  rw [exec_eq i hq, finish_ok hc]

theorem nonPositive_toInt (v : Word) : nonPositive v = decide (v.toInt ≤ 0) := by
  rw [nonPositive, s32_eq_toInt]

theorem belowNyquist_toInt (r f : Word) : belowNyquist r f = decide ((r.toNat : Int) < 4 * f.toInt) := by
  rw [belowNyquist, s32_eq_toInt, u32]

/-- A positive operand as the number it is. -/
theorem magnitude_toInt {v : Word} (h : 0 < v.toInt) : (magnitude v : Int) = v.toInt := by
  rw [magnitude, s32_eq_toInt]
  exact Int.toNat_of_nonneg h.le

/-- `N = SAMPLE_RATE div f` of R104, on integers. -/
theorem samplesPerCycle_toInt (r : Word) {f : Word} (h : 0 < f.toInt) :
    (samplesPerCycle r f : Int) = (r.toNat : Int) / f.toInt := by
  rw [samplesPerCycle, Int.natCast_div, magnitude_toInt h, u32]

/-- The checks of WAVE that the exact integers `N = R div f` and `N * c` decide, once f and c are positive. -/
theorem waveCode_of_pos {q : Inflight} {s : State} (hr : s.rateValid = true) (hf : 0 < q.a0.toInt) :
    waveCode q s =
      if (s.sampleRate.toNat : Int) < 4 * q.a0.toInt then .argNyquist
      else if q.a1.toInt ≤ 0 then .argCount
      else if (s.params.symCap : Int) < s.sampleRate.toNat / q.a0.toInt then .capSym
      else if (s.params.outCap : Int) < s.sampleRate.toNat / q.a0.toInt * q.a1.toInt then .capOut
      else .ok := by
  by_cases hc : q.a1.toInt ≤ 0
  · simp [waveCode, nonPositive_toInt, belowNyquist_toInt, hr, not_le.mpr hf, hc]
  · have hcap : s.params.outCap < samplesPerCycle s.sampleRate q.a0 * magnitude q.a1 ↔
        (s.params.outCap : Int) < s.sampleRate.toNat / q.a0.toInt * q.a1.toInt := by
      rw [← samplesPerCycle_toInt _ hf, ← magnitude_toInt (not_le.mp hc)]
      norm_cast
    simp [waveCode, nonPositive_toInt, belowNyquist_toInt, hr, not_le.mpr hf, hc, hcap,
      ← samplesPerCycle_toInt _ hf]

/-- A WAVE that passes its checks leaves `c` whole cycles of N samples in the output (R107, R108). -/
theorem exec_wave_of_ok {s : State} {q : Inflight} (hq : s.inflight = some q) (hlegal : s.params.legal = true)
    (hok : waveCode q s = .ok) :
    ∃ (m : Memory) (L : Word), exec .wave s = .next
        { s with out := m, outLen := L, rdPtr := 0, ecode := 0, inflight := none, busy := false } ∧
      L.toNat = samplesPerCycle s.sampleRate q.a0 * magnitude q.a1 ∧ m.wf ∧
      ∀ k, k < L.toNat → Memory.read m k =
        some (sample (k % samplesPerCycle s.sampleRate q.a0) (samplesPerCycle s.sampleRate q.a0)) := by
  obtain ⟨_, _, _, _, _, hfit⟩ := waveCode_ok.mp hok
  have hcap := Params.caps_of_legal hlegal
  obtain ⟨hlen, _, hwf, hread⟩ := produce_spec s
    (fun k => sample (k % samplesPerCycle s.sampleRate q.a0) (samplesPerCycle s.sampleRate q.a0))
    (by omega : samplesPerCycle s.sampleRate q.a0 * magnitude q.a1 < 2 ^ 32)
  exact ⟨_, _, exec_of_ok hq hok, hlen, hwf, fun k hk => hread k (hlen ▸ hk)⟩

end Sys2Proof.Machine
end

section
/-! What the statements of S rest on: the ends of `level`, the symmetries of the quarter turn, and the truncation of
the exact sine. -/

namespace Sys2Proof.Machine

open Real

/-- Every level of a list is reached exactly when no threshold lies above the fraction. -/
theorem levelsReached_eq_length_iff (x n : ℕ) :
    ∀ ts : List (ℕ × ℕ), levelsReached ts x n = ts.length ↔ ∀ t ∈ ts, t.1 * n ≤ x * t.2
  | [] => by simp [levelsReached]
  | t :: ts => by
    by_cases h : t.1 * n ≤ x * t.2
    · simp [levelsReached, h, levelsReached_eq_length_iff x n ts]
    · simp [levelsReached, h]

/-- The peak is reached exactly from the quarter turn on: its threshold is 1/2, and every other one is below. -/
theorem level_eq_peak_iff (x n : ℕ) : level x n = 127 ↔ n ≤ 2 * x := by
  rw [level, ← thresholds_length, levelsReached_eq_length_iff]
  constructor
  · intro h
    have := h (1, 2) (by decide +kernel)
    omega
  · intro h t ht
    have hhalf : ∀ t ∈ thresholds, 2 * t.1 ≤ t.2 := by decide +kernel
    calc t.1 * n ≤ t.1 * (2 * x) := Nat.mul_le_mul_left _ h
      _ = x * (2 * t.1) := by ring
      _ ≤ x * t.2 := Nat.mul_le_mul_left _ (hhalf t ht)

/-- Below the threshold of level 1 no level is reached. -/
theorem level_eq_zero {x n : ℕ} (h : x * 3545037711 < 8885293 * n) : level x n = 0 := by
  rw [level, thresholds, thresholds1]
  exact if_neg h.not_ge

theorem S_of_firstHalf {i N : ℕ} (h : 2 * i < N) : S i N = level (quarterTurn i N) N := by
  rw [S, if_pos h]

theorem S_of_secondHalf {i N : ℕ} (h : N ≤ 2 * i) : S i N = -level (quarterTurn i N) N := by
  rw [S, if_neg h.not_gt]

theorem quarterTurn_reflect {i N : ℕ} (h : i < N) (hi : 1 ≤ i) : quarterTurn (N - i) N = quarterTurn i N := by
  simp only [quarterTurn, halfTurn]
  split_ifs <;> omega

theorem quarterTurn_halfCycle_sub {i N : ℕ} (hN : N % 2 = 0) (hi : i ≤ N / 2) :
    quarterTurn (N / 2 - i) N = quarterTurn i N := by
  simp only [quarterTurn, halfTurn]
  split_ifs <;> omega

/-- A quarter turn is full only a quarter and three quarters of the way through the cycle. -/
theorem four_dvd_of_quarterTurn_full {i N : ℕ} (h : i < N) (hq : N ≤ 2 * quarterTurn i N) : N % 4 = 0 := by
  simp only [quarterTurn, halfTurn] at hq
  split_ifs at hq <;> omega

theorem S_eq_zero_of_quarterTurn {i N : ℕ} (hN : 0 < N) (h : quarterTurn i N = 0) : S i N = 0 := by
  have hl : level 0 N = 0 := level_eq_zero (by omega)
  rw [S, h, hl]
  exact ite_self 0

theorem S_start {N : ℕ} (hN : 0 < N) : S 0 N = 0 :=
  S_eq_zero_of_quarterTurn hN (by simp [quarterTurn, halfTurn])

theorem S_halfPoint {N : ℕ} (hN : 0 < N) (h2 : N % 2 = 0) : S (N / 2) N = 0 := by
  refine S_eq_zero_of_quarterTurn hN ?_
  simp only [quarterTurn, halfTurn]
  split_ifs <;> omega

/-- The second half-cycle is the first negated in reverse (R102). -/
theorem S_reflect {i N : ℕ} (hi : 1 ≤ i) (h : i < N) : S (N - i) N = -S i N := by
  have hq := quarterTurn_reflect h hi
  rcases Nat.lt_trichotomy (2 * i) N with hlt | heq | hgt
  · rw [S_of_secondHalf (by omega), S_of_firstHalf hlt, hq]
  · have hz : S i N = 0 := by
      rw [show i = N / 2 by omega]
      exact S_halfPoint (by omega) (by omega)
    rw [show N - i = i by omega, hz, neg_zero]
  · rw [S_of_firstHalf (by omega), S_of_secondHalf hgt.le, hq, neg_neg]

/-- For even N the first half-cycle is symmetric (R102). -/
theorem S_halfCycle_sub {i N : ℕ} (hN : 0 < N) (h2 : N % 2 = 0) (hi : i ≤ N / 2) : S (N / 2 - i) N = S i N := by
  have hq := quarterTurn_halfCycle_sub h2 hi
  rcases Nat.eq_zero_or_pos i with rfl | hpos
  · rw [Nat.sub_zero, S_halfPoint hN h2, S_start hN]
  · rcases Nat.lt_or_eq_of_le hi with hlt | rfl
    · rw [S_of_firstHalf (by omega), S_of_firstHalf (by omega), hq]
    · rw [Nat.sub_self, S_halfPoint hN h2, S_start hN]

theorem S_quarterPoint {N : ℕ} (hN : 0 < N) (h4 : N % 4 = 0) : S (N / 4) N = 127 := by
  have hfull : N ≤ 2 * quarterTurn (N / 4) N := by
    simp only [quarterTurn, halfTurn]
    split_ifs <;> omega
  rw [S_of_firstHalf (by omega), (level_eq_peak_iff _ _).mpr hfull]
  rfl

/-- No sample reaches the peak unless N is a multiple of 4 (R102). -/
theorem S_ne_peak {i N : ℕ} (h4 : N % 4 ≠ 0) (h : i < N) : S i N ≠ 127 ∧ S i N ≠ -127 := by
  have hne : level (quarterTurn i N) N ≠ 127 := fun hl =>
    h4 (four_dvd_of_quarterTurn_full h ((level_eq_peak_iff _ _).mp hl))
  rw [S]
  split <;> omega

/-- From N = 798 on the first sample after the start is 0 (R102). -/
theorem S_one_of_long {N : ℕ} (h : 798 ≤ N) : S 1 N = 0 := by
  have hq : quarterTurn 1 N = 2 := by
    simp only [quarterTurn, halfTurn]
    split_ifs <;> omega
  rw [S_of_firstHalf (by omega), hq, level_eq_zero (by omega)]
  rfl

theorem truncReal_of_nonneg {x : ℝ} (h : 0 ≤ x) : truncReal x = ⌊x⌋ := by
  rw [truncReal, if_pos h]

theorem truncReal_neg_of_nonneg {x : ℝ} (h : 0 ≤ x) : truncReal (-x) = -⌊x⌋ := by
  rcases h.eq_or_lt with rfl | hpos
  · simp [truncReal]
  · rw [truncReal, if_neg (by linarith), neg_neg]

theorem sin_phase_nonneg {x n : ℕ} (hn : 0 < n) (hx : 2 * x ≤ n) : 0 ≤ sin (π * x / n) :=
  sin_nonneg_of_nonneg_of_le_pi (by positivity) (by linarith [Laws.Sine.phase_le_half hn hx, pi_pos])

/-- **What S is**: the exact sine of R100, truncated, for every N that a register holds. -/
theorem S_eq_truncReal {i N : ℕ} (hN : N < 2 ^ 32) (h : i < N) : S i N = truncReal (exactSine i N) := by
  have hpos : 0 < N := by omega
  have hq := quarterTurn_le h
  have hs : 0 ≤ 127 * sin (π * quarterTurn i N / N) := mul_nonneg (by norm_num) (sin_phase_nonneg hpos hq)
  rw [S, exactSine_quarterTurn h, Laws.Sine.level_eq_floor hpos hN hq]
  split
  · rw [truncReal_of_nonneg hs]
  · rw [truncReal_neg_of_nonneg hs]

end Sys2Proof.Machine
end

section
/-! The precision margin of R103. For each level the two fractions with denominators up to 8192 that are nearest to
its angle are found by a search that no proof trusts: the check that they are Farey neighbours, and that the sine
at them is clear of the level, is evaluated on integers as in Laws/SineThresholds.lean. -/

namespace Sys2Proof.Laws.Sine

open Real

/-- The neighbours of `t` among the fractions with denominators up to 8192: a descent of the Stern-Brocot tree, as
far as the fuel lasts. -/
def fareyBracket (t : ℕ × ℕ) : ℕ → ℕ × ℕ → ℕ × ℕ → (ℕ × ℕ) × (ℕ × ℕ)
  | 0, l, u => (l, u)
  | fuel + 1, l, u =>
    if 8192 < l.2 + u.2 then (l, u)
    else if t.1 * (l.2 + u.2) ≤ (l.1 + u.1) * t.2 then fareyBracket t fuel l (l.1 + u.1, l.2 + u.2)
    else fareyBracket t fuel (l.1 + u.1, l.2 + u.2) u

/-- The check that 127 times the sine is at least 66/10^9 below `k` at the fraction `l`, above `k` at `u`, and that
no fraction with a denominator up to 8192 lies between the two. -/
def clearsLevel (k : ℕ) (l u : ℕ × ℕ) : Bool :=
  decide (u.1 * l.2 = l.1 * u.2 + 1) && decide (8192 < l.2 + u.2)
    && fractionBelow (k * 10 ^ 9 - 66) (127 * 10 ^ 9) l.1 l.2
    && fractionAbove (k * 10 ^ 9 + 66) (127 * 10 ^ 9) u.1 u.2

/-- Nothing with a smaller denominator than their sum lies between two Farey neighbours. -/
theorem le_or_le_of_farey {l u : ℕ × ℕ} {x n : ℕ} (hadj : u.1 * l.2 = l.1 * u.2 + 1) (hn : n < l.2 + u.2) :
    x * l.2 ≤ l.1 * n ∨ u.1 * n ≤ x * u.2 := by
  by_contra hc
  rw [not_or, not_le, not_le] at hc
  obtain ⟨hl, hu⟩ := hc
  have h1 := Nat.mul_le_mul_right u.2 hl
  have h2 := Nat.mul_le_mul_right l.2 hu
  have h3 : n * (u.1 * l.2) = n * (l.1 * u.2 + 1) := by rw [hadj]
  nlinarith

theorem two_mul_le_of_fractionBelow {r s p q : ℕ} (h : fractionBelow r s p q = true) : 0 < q ∧ 2 * p ≤ q := by
  simp only [fractionBelow, Bool.and_eq_true, decide_eq_true_eq] at h
  obtain ⟨⟨hq, hp⟩, _⟩ := h
  refine ⟨hq, Nat.le_of_mul_le_mul_left (c := piLow) ?_ (by decide +kernel)⟩
  nlinarith

/-- The sine stays the margin below a level up to a fraction at which it does. -/
theorem add_margin_le {k x n p q : ℕ} (hk : 1 ≤ k) (h : fractionBelow (k * 10 ^ 9 - 66) (127 * 10 ^ 9) p q = true)
    (hn : 0 < n) (hle : x * q ≤ p * n) : 127 * sin (π * x / n) + 66 / 10 ^ 9 ≤ k := by
  obtain ⟨hq, hp⟩ := two_mul_le_of_fractionBelow h
  have hlt := fractionBelow_sound (by norm_num) h
  have hmono := sin_le_sin_of_le_of_le_pi_div_two (neg_half_pi_le_phase x n) (phase_le_half hq hp)
    (phase_le_phase hn hq hle)
  rw [lt_div_iff₀ (by norm_num), Nat.cast_sub (by omega)] at hlt
  push_cast at hlt
  linarith

/-- The sine stays the margin above a level from a fraction on at which it is. -/
theorem add_margin_le_sine {k x n p q : ℕ} (h : fractionAbove (k * 10 ^ 9 + 66) (127 * 10 ^ 9) p q = true)
    (hn : 0 < n) (hx : 2 * x ≤ n) (hle : p * n ≤ x * q) : (k : ℝ) + 66 / 10 ^ 9 ≤ 127 * sin (π * x / n) := by
  have hq : 0 < q := by
    simp only [fractionAbove, Bool.and_eq_true, decide_eq_true_eq] at h
    exact h.1.1
  have hlt := fractionAbove_sound (by norm_num) h
  have hmono := sin_le_sin_of_le_of_le_pi_div_two (neg_half_pi_le_phase p q) (phase_le_half hn hx)
    (phase_le_phase hq hn hle)
  rw [div_lt_iff₀ (by norm_num)] at hlt
  push_cast at hlt
  linarith

/-- The search finds neighbours that pass the check, for every level between 0 and the peak. -/
theorem clearsLevel_fareyBracket : ∀ k < 126,
    clearsLevel (k + 1) (fareyBracket (Machine.thresholds.getD k (0, 1)) 8192 (0, 1) (1, 1)).1
      (fareyBracket (Machine.thresholds.getD k (0, 1)) 8192 (0, 1) (1, 1)).2 = true := by
  decide +kernel

/-- Strictly between 0 and the quarter turn the exact value of R100 keeps the margin of R103 from every integer. -/
theorem margin_of_quarterTurn {x n : ℕ} (hx : 1 ≤ x) (hlt : 2 * x < n) (hn : n ≤ 8192) (m : ℤ) :
    (66 : ℝ) / 10 ^ 9 ≤ |127 * sin (π * x / n) - m| := by
  have hpos : 0 < n := by omega
  rcases le_or_gt m 0 with hm | hm
  · have h0 := add_margin_le_sine (k := 0) (x := x) (p := 1) (q := 8192) (by decide +kernel) hpos hlt.le (by omega)
    have hmR : (m : ℝ) ≤ 0 := by exact_mod_cast hm
    exact le_trans (by push_cast at h0; linarith) (le_abs_self _)
  · rcases le_or_gt 127 m with hm' | hm'
    · have hp := add_margin_le (k := 127) (x := x) (p := 4095) (q := 8191) (by norm_num) (by decide +kernel) hpos
        (by omega)
      have hmR : (127 : ℝ) ≤ m := by exact_mod_cast hm'
      exact le_trans (by push_cast at hp; linarith) (neg_le_abs _)
    · obtain ⟨k, hk⟩ : ∃ k : ℕ, m = ((k + 1 : ℕ) : ℤ) := ⟨(m - 1).toNat, by omega⟩
      have hrow := clearsLevel_fareyBracket k (by omega)
      simp only [clearsLevel, Bool.and_eq_true, decide_eq_true_eq] at hrow
      obtain ⟨⟨⟨hadj, hsum⟩, hbelow⟩, habove⟩ := hrow
      rw [hk, Int.cast_natCast]
      rcases le_or_le_of_farey (x := x) hadj (hn.trans_lt hsum) with hle | hle
      · have := add_margin_le (by omega) hbelow hpos hle
        exact le_trans (by linarith) (neg_le_abs _)
      · have := add_margin_le_sine habove hpos hlt.le hle
        exact le_trans (by linarith) (le_abs_self _)

end Sys2Proof.Laws.Sine

namespace Sys2Proof.Machine

open Real

theorem abs_sub_intCast_neg (x : ℝ) (m : ℤ) : |x - ((-m : ℤ) : ℝ)| = |-x - m| := by
  rw [Int.cast_neg, sub_neg_eq_add, ← abs_neg, neg_add']

/-- The margin of R103, over the whole cycle. -/
theorem exactSine_margin {i N : ℕ} (hN : N ≤ 8192) (h : i < N) :
    (exactSine i N = 0 ∨ exactSine i N = 127 ∨ exactSine i N = -127) ∨
      ∀ m : ℤ, (66 : ℝ) / 10 ^ 9 ≤ |exactSine i N - m| := by
  have hq := quarterTurn_le h
  rw [exactSine_quarterTurn h]
  generalize quarterTurn i N = x at hq ⊢
  rcases Nat.eq_zero_or_pos x with rfl | hx
  · simp
  · rcases Nat.lt_or_eq_of_le hq with hlt | heq
    · refine .inr fun m => ?_
      split
      · exact Laws.Sine.margin_of_quarterTurn hx hlt hN m
      · have := Laws.Sine.margin_of_quarterTurn hx hlt hN (-m)
        rwa [abs_sub_intCast_neg] at this
    · have hpeak : sin (π * x / N) = 1 := by
        have hxR : (x : ℝ) ≠ 0 := by exact_mod_cast hx.ne'
        rw [← heq, Nat.cast_mul, Nat.cast_two, mul_div_mul_right _ _ hxR, sin_pi_div_two]
      refine .inl (.inr ?_)
      rw [hpeak, mul_one]
      split
      · exact .inl rfl
      · exact .inr rfl

theorem floor_eq_of_margin {x y d : ℝ} (hm : ∀ m : ℤ, d ≤ |x - m|) (hy : |y - x| < d) : ⌊y⌋ = ⌊x⌋ := by
  have hlo := hm ⌊x⌋
  have hhi := hm (⌊x⌋ + 1)
  rw [abs_of_nonneg (by linarith [Int.floor_le x])] at hlo
  rw [abs_of_nonpos (by push_cast; linarith [Int.lt_floor_add_one x])] at hhi
  obtain ⟨hy1, hy2⟩ := abs_lt.mp hy
  push_cast at hhi
  exact Int.floor_eq_iff.mpr ⟨by linarith, by linarith⟩

/-- What lies closer to `x` than every integer does truncates as `x` does. -/
theorem truncReal_eq_of_margin {x y d : ℝ} (hm : ∀ m : ℤ, d ≤ |x - m|) (hy : |y - x| < d) :
    truncReal y = truncReal x := by
  have hfloor := floor_eq_of_margin hm hy
  have hneg : ⌊-y⌋ = ⌊-x⌋ := by
    refine floor_eq_of_margin (fun m => ?_) (by rwa [neg_sub_neg, abs_sub_comm])
    have := hm (-m)
    rwa [abs_sub_intCast_neg] at this
  have hsign : 0 ≤ y ↔ 0 ≤ x := by rw [← Int.floor_nonneg, hfloor, Int.floor_nonneg]
  simp only [truncReal, hsign, hfloor, hneg]

theorem truncReal_eq_zero {y : ℝ} (h : |y| < 1) : truncReal y = 0 := by
  obtain ⟨hlo, hhi⟩ := abs_lt.mp h
  rw [truncReal]
  split
  · exact Int.floor_eq_zero_iff.mpr ⟨‹_›, hhi⟩
  · rw [neg_eq_zero]
    exact Int.floor_eq_zero_iff.mpr ⟨by linarith, by linarith⟩

end Sys2Proof.Machine
end

section
/-! The statements of the wave-cycle family (40_wavecycle.md). -/

open Sys2Proof Sys2Proof.Machine

/-- Settles O47: the invariant's own step lemma, by which agent moves. -/
theorem stepKeepsInv : Obligations.StepKeepsInv :=
  fun _ _ hi h => hi.step h

/-- Settles O14, by the one check of CFG_RATE. -/
theorem cfgRateResult : Obligations.CfgRateResult := by
  refine ⟨decodeWord_encode .cfgRate, fun s q hq => ⟨fun h => ?_, fun h => ?_⟩⟩
  · exact exec_of_error (c := .argRate) hq (by simp [codeOf, cfgRateCode, nonPositive_toInt, h]) (by decide)
  · exact exec_of_ok hq (cfgRateCode_ok.mpr (by rwa [s32_eq_toInt]))

/-- Settles O15, check by check in the order of R195; the last case is `exec_wave_of_ok`. -/
theorem waveResult : Obligations.WaveResult := by
  refine ⟨decodeWord_encode .wave, ?_⟩
  rintro s q _ _ _ hq hlegal rfl rfl rfl
  refine ⟨fun hr => ?_, fun hr hf => ?_, fun hr hf hny => ?_, fun hr hf hny hc => ?_, fun hr hf hny hc hsym => ?_,
    fun hr hf hny hc hsym hout => ?_, fun hr hf hny hc hsym hout => ?_⟩
  · exact exec_of_error (c := .seqRate) hq (by simp [codeOf, waveCode, hr]) (by decide)
  · exact exec_of_error (c := .argFreq) hq (by simp [codeOf, waveCode, nonPositive_toInt, hr, hf]) (by decide)
  · exact exec_of_error (c := .argNyquist) hq (by rw [codeOf, waveCode_of_pos hr hf, if_pos hny]) (by decide)
  · exact exec_of_error (c := .argCount) hq
      (by rw [codeOf, waveCode_of_pos hr hf, if_neg hny.not_gt, if_pos hc]) (by decide)
  · exact exec_of_error (c := .capSym) hq
      (by rw [codeOf, waveCode_of_pos hr hf, if_neg hny.not_gt, if_neg hc.not_ge, if_pos hsym]) (by decide)
  · exact exec_of_error (c := .capOut) hq
      (by rw [codeOf, waveCode_of_pos hr hf, if_neg hny.not_gt, if_neg hc.not_ge, if_neg hsym.not_gt, if_pos hout])
      (by decide)
  · have hok : waveCode q s = .ok := by
      rw [waveCode_of_pos hr hf, if_neg hny.not_gt, if_neg hc.not_ge, if_neg hsym.not_gt, if_neg hout.not_gt]
    obtain ⟨m, L, hexec, hlen, hwf, hread⟩ := exec_wave_of_ok hq hlegal hok
    refine ⟨m, L, hexec, ?_, hwf, ?_⟩
    · rw [hlen, Nat.cast_mul, samplesPerCycle_toInt _ hf, magnitude_toInt hc]
    · rwa [← samplesPerCycle_toInt _ hf, Int.toNat_natCast]

/-- Settles O51: the bounds are those of the number of levels, and a value in them survives its 8 bits. -/
theorem sampleRange : Obligations.SampleRange := by
  refine ⟨fun i N => ?_, by decide +kernel, by decide +kernel, by decide +kernel, by decide +kernel⟩
  obtain ⟨hlo, hhi⟩ := S_bounds i N
  exact ⟨hlo, hhi, sample_toInt i N, sample_ne_0x80 i N⟩

/-- Settles O50: the levels are the floor of the exact sine in its quarter turn, and the sign is that of its half. -/
theorem sampleIsTruncatedSine : Obligations.SampleIsTruncatedSine := by
  intro i N _ hN hi
  have hS := S_eq_truncReal hN hi
  exact ⟨hS, (sample_toInt i N).trans hS⟩

/-- Settles O52, law by law; the peak of N = 5 and the value at N = 797 are evaluated. -/
theorem sampleLaws : Obligations.SampleLaws := by
  intro N hN
  have hpos : 0 < N := by omega
  refine ⟨S_start hpos, fun i h1 hi => S_reflect h1 hi, fun h2 => ⟨S_halfPoint hpos h2, fun i hi => ?_⟩,
    fun h4 => ⟨S_quarterPoint hpos h4, ?_⟩, fun h4 i hi => S_ne_peak h4 hi, ?_, S_one_of_long, ?_⟩
  · exact S_halfCycle_sub hpos h2 hi
  · rw [show 3 * N / 4 = N - N / 4 by omega, S_reflect (by omega) (by omega), S_quarterPoint hpos h4]
  · rintro rfl
    exact ⟨⟨1, by decide +kernel⟩, by decide +kernel⟩
  · rintro rfl
    decide +kernel

/-- Settles O53: an exact value that keeps the margin truncates with everything closer to it than the margin, and the
one exact value left is 0. -/
theorem samplePrecisionMargin : Obligations.SamplePrecisionMargin := by
  intro i N _ hN hi
  have hmargin := exactSine_margin hN hi
  refine ⟨hmargin, fun y hy hne hne' => ?_⟩
  rw [S_eq_truncReal (by omega) hi]
  rcases hmargin with (h0 | hpeak | hpeak) | hm
  · rw [h0, sub_zero] at hy
    rw [h0, truncReal_eq_zero (hy.trans (by norm_num)), truncReal_eq_zero (by norm_num)]
  · exact absurd hpeak hne
  · exact absurd hpeak hne'
  · exact truncReal_eq_of_margin hm hy

end

section
/-! What the statements of the symbol cache rest on: the checks of CFG_FSK and ENCODE_BIT on the exact integers of
R131 and R132, what each leaves on success, and the symbol that a bit selects. -/

namespace Sys2Proof.Machine

/-- A command that ends with code 0 has passed its checks, and leaves its effects (R193, R194). -/
theorem exec_succeeds {i : Instr} {s t : State} {q : Inflight} (hq : s.inflight = some q)
    (h : exec i s = .next t) (he : t.ecode = 0) : codeOf i q s = .ok ∧ t = finishOk (effectOf i q s) := by
  rw [exec_eq i hq] at h
  cases h
  by_cases hc : codeOf i q s = .ok
  · exact ⟨hc, finish_ok hc _ _⟩
  · rw [finish_error hc] at he
    exact absurd (Code.bits_eq_zero.mp he) hc

/-- The code that the checks give is the one a completion ends with. -/
theorem finish_ecode (c : Code) {e s : State} : (finish c e s).ecode = c.bits := by
  rw [finish]
  split
  · subst c; rfl
  · rfl

/-! #### The cache and its writers -/

/-- A host step leaves the symbol cache alone. -/
@[simp] theorem cacheOf_hostStep (s : State) : cacheOf (hostStep s) = cacheOf s := by
  rw [hostStep_frame]
  rfl

/-- Of the commands only CFG_RATE and CFG_FSK write the symbol cache (R72, R138). -/
theorem effectOf_cache {i : Instr} {q : Inflight} {s : State} (h : cacheOf (effectOf i q s) ≠ cacheOf s) :
    i = .cfgRate ∨ i = .cfgFsk := by
  cases i
  case cfgRate => exact .inl rfl
  case cfgFsk => exact .inr rfl
  case wave => exact absurd rfl h
  case encodeBit => exact absurd rfl h

/-! #### CFG_FSK -/

/-- The checks of CFG_FSK that are left once the rate is set and both frequencies are positive (R131). -/
theorem cfgFskCode_of_pos {q : Inflight} {s : State} (hr : s.rateValid = true) (hl : 0 < q.a0.toInt)
    (hh : 0 < q.a1.toInt) :
    cfgFskCode q s =
      if q.a0.toInt = q.a1.toInt then .argFskEqual
      else if (s.sampleRate.toNat : Int) < 4 * q.a0.toInt ∨ (s.sampleRate.toNat : Int) < 4 * q.a1.toInt then
        .argNyquist
      else if (s.params.symCap : Int) < s.sampleRate.toNat / q.a0.toInt ∨
          (s.params.symCap : Int) < s.sampleRate.toNat / q.a1.toInt then .capSym
      else .ok := by
  simp [cfgFskCode, nonPositive_toInt, belowNyquist_toInt, hr, not_le.mpr hl, not_le.mpr hh, BitVec.toInt_inj,
    ← samplesPerCycle_toInt _ hl, ← samplesPerCycle_toInt _ hh]

/-- The checks of CFG_FSK treat the two frequencies alike (R137). -/
theorem cfgFskCode_swap (c x y : Word) (s : State) : cfgFskCode ⟨c, y, x⟩ s = cfgFskCode ⟨c, x, y⟩ s := by
  simp only [cfgFskCode, Bool.or_comm, eq_comm (a := y)]

/-- Both symbols of a successful CFG_FSK are valid (R45 item 4, R131). -/
theorem cfgFskEffect_symbols {s : State} {q : Inflight} (hlegal : s.params.legal = true)
    (h : cfgFskCode q s = .ok) :
    SymbolOk s.sampleRate q.a0 (cfgFskEffect q s).lenLow s.params.symCap (cfgFskEffect q s).symLow ∧
    SymbolOk s.sampleRate q.a1 (cfgFskEffect q s).lenHigh s.params.symCap (cfgFskEffect q s).symHigh := by
  obtain ⟨_, hl, hh, _, hnl, hnh, hcl, hch⟩ := cfgFskCode_ok.mp h
  have hcap := Params.caps_of_legal hlegal
  have h32 : s.params.symCap < 2 ^ 32 := by omega
  exact ⟨SymbolOk.of_checks s.symLow hl hnl hcl h32, SymbolOk.of_checks s.symHigh hh hnh hch h32⟩

/-- A filled array is read by the word that holds its length. -/
theorem Memory.read_fill_ofNat (m : Memory) {n : Nat} (f : Nat → Nat → Byte) (h : n < 2 ^ 32) (i : Nat) :
    Memory.read (m.fill n fun i => f i n) i =
      if i < (BitVec.ofNat 32 n).toNat then some (f i (BitVec.ofNat 32 n).toNat) else Memory.read m i := by
  rw [show (BitVec.ofNat 32 n).toNat = n from u32_ofNat h, Memory.read_fill]

/-! #### A valid symbol and WAVE at its frequency -/

namespace SymbolOk
variable {rate f len : Word} {cap : Nat} {m : Memory} (h : SymbolOk rate f len cap m)
include h

theorem len_pos : 0 < u32 len := by
  rw [h.length]
  exact Nat.div_pos (by have := h.nyquist; omega) h.positive

theorem read_mod (k : Nat) : Memory.read m (k % u32 len) = some (sample (k % u32 len) (u32 len)) :=
  h.contents _ (Nat.mod_lt k h.len_pos)

/-- The frequency of a valid symbol is positive as an operand too: a quarter of any rate is below 2^30. -/
theorem freq_pos : 0 < s32 f := by
  have hf := h.positive
  have hn := h.nyquist
  have := rate.isLt
  rw [s32_eq_toInt, BitVec.toInt_eq_toNat_of_lt (by simp only [u32] at hn; omega)]
  simp only [u32] at hf
  omega

theorem samplesPerCycle_eq : samplesPerCycle rate f = u32 len := by
  rw [samplesPerCycle, magnitude_of_pos h.freq_pos, h.length]

theorem belowNyquist_eq_false : belowNyquist rate f = false := by
  have hn := h.nyquist
  have hu := u32_of_pos h.freq_pos
  rw [belowNyquist, decide_eq_false_iff_not]
  omega

end SymbolOk

/-- WAVE at the frequency of a valid symbol succeeds when its output fits, and repeats the symbol (R107, R130). -/
theorem SymbolOk.wave_output {s : State} {f c len : Word} {m : Memory}
    (h : SymbolOk s.sampleRate f len s.params.symCap m) (hlegal : s.params.legal = true) (hr : s.rateValid = true)
    (hc : 0 < s32 c) (hfit : u32 len * magnitude c ≤ s.params.outCap) :
    ∃ t : State, exec .wave (inFlight s 2 f c) = .next t ∧ t.ecode = 0 ∧ u32 t.outLen = u32 len * magnitude c ∧
      ∀ k, k < u32 t.outLen → Memory.read t.out k = some (sample (k % u32 len) (u32 len)) := by
  rw [← h.samplesPerCycle_eq] at hfit ⊢
  have hok : waveCode ⟨2, f, c⟩ (inFlight s 2 f c) = .ok :=
    waveCode_ok.mpr ⟨hr, h.freq_pos, h.belowNyquist_eq_false, hc, h.samplesPerCycle_eq.trans_le h.fits, hfit⟩
  obtain ⟨out, L, hexec, hlen, _, hread⟩ := exec_wave_of_ok (s := inFlight s 2 f c) rfl hlegal hok
  exact ⟨_, hexec, rfl, hlen, hread⟩

/-- A valid symbol is the output of a WAVE of one cycle at its frequency (R130). -/
theorem SymbolOk.oneCycle {s : State} {f len : Word} {m : Memory} (hlegal : s.params.legal = true)
    (hr : s.rateValid = true) (h : SymbolOk s.sampleRate f len s.params.symCap m) :
    ∃ u : State, exec .wave (inFlight s 2 f 1) = .next u ∧ u.ecode = 0 ∧ u.outLen = len ∧
      ∀ i, i < u32 len → Memory.read m i = Memory.read u.out i := by
  have hone : u32 len * magnitude 1 = u32 len := Nat.mul_one _
  have hfit : u32 len ≤ s.params.outCap := h.fits.trans (Params.caps_of_legal hlegal).1
  obtain ⟨u, hexec, he, hlen, hread⟩ := h.wave_output hlegal hr (c := 1) (by decide) (hone.trans_le hfit)
  obtain rfl : u.outLen = len := BitVec.eq_of_toNat_eq (hlen.trans hone)
  refine ⟨u, hexec, he, rfl, fun i hi => ?_⟩
  rw [h.contents i hi, hread i hi, Nat.mod_eq_of_lt hi]

/-! #### ENCODE_BIT -/

/-- The full word is 0 or 1 exactly when the operand is (R133). -/
theorem toInt_isBit {b : Word} : (b.toInt = 0 ∨ b.toInt = 1) ↔ (b = 0 ∨ b = 1) := by
  rw [← BitVec.toInt_inj, ← BitVec.toInt_inj]
  rfl

/-- The checks of ENCODE_BIT that are left once the cache is valid and the operand is a bit (R132). -/
theorem encodeBitCode_of_bit {q : Inflight} {s : State} (hv : s.symValid = true)
    (hb : q.a0.toInt = 0 ∨ q.a0.toInt = 1) :
    encodeBitCode q s =
      if q.a1.toInt ≤ 0 then .argCount
      else if (s.params.outCap : Int) < symbolLen q.a0 s * q.a1.toInt then .capOut
      else .ok := by
  have hbit : (decide (s32 q.a0 ≠ 0) && decide (s32 q.a0 ≠ 1)) = false := by
    rw [s32_eq_toInt]
    rcases hb with h | h <;> rw [h] <;> decide
  rw [encodeBitCode, hbit, if_neg (by simp [hv]), if_neg Bool.false_ne_true, nonPositive_toInt]
  by_cases hc : q.a1.toInt ≤ 0
  · simp [hc]
  · rw [decide_eq_false hc, if_neg Bool.false_ne_true, if_neg hc, ← magnitude_toInt (not_le.mp hc)]
    norm_cast

/-- An ENCODE_BIT that passes its checks leaves the bit's symbol in the output, `c` times over (R132, R134). -/
theorem exec_encodeBit_of_ok {s : State} {q : Inflight} (hq : s.inflight = some q) (hlegal : s.params.legal = true)
    (hok : encodeBitCode q s = .ok) :
    ∃ (m : Memory) (len : Word), exec .encodeBit s = .next
        { s with out := m, outLen := len, rdPtr := 0, ecode := 0, inflight := none, busy := false } ∧
      len.toNat = symbolLen q.a0 s * magnitude q.a1 ∧ m.wf ∧
      ∀ k, k < len.toNat → Memory.read m k = some (symbolAt q.a0 s (k % symbolLen q.a0 s)) := by
  obtain ⟨_, _, _, hfit⟩ := encodeBitCode_ok.mp hok
  have hcap := Params.caps_of_legal hlegal
  obtain ⟨hlen, _, hwf, hread⟩ := produce_spec s (fun k => symbolAt q.a0 s (k % symbolLen q.a0 s))
    (by omega : symbolLen q.a0 s * magnitude q.a1 < 2 ^ 32)
  exact ⟨_, _, exec_of_ok hq hok, hlen, hwf, fun k hk => hread k (hlen ▸ hk)⟩

namespace Inv
variable {s : State} (hi : Inv s) (hv : s.symValid = true)
include hi hv

theorem rateValid_of_symValid : s.rateValid = true := by
  by_contra hr
  have hoff := (hi.rate_off (by simpa using hr)).2
  simp [hv] at hoff

/-- The symbol that a bit selects is a valid one (R133, R45 item 4). -/
theorem symbolOk (b : Word) :
    SymbolOk s.sampleRate (if b = 0 then s.freqLow else s.freqHigh) (if b = 0 then s.lenLow else s.lenHigh)
      s.params.symCap (if b = 0 then s.symLow else s.symHigh) := by
  split
  · exact hi.sym_low hv
  · exact hi.sym_high hv

end Inv

theorem symbolLen_eq (b : Word) (s : State) : symbolLen b s = u32 (if b = 0 then s.lenLow else s.lenHigh) :=
  (apply_ite u32 _ _ _).symm

/-- An entry of the bit's symbol that a command has written. -/
theorem symbolAt_of_read {b : Word} {s : State} {i : Nat} {x : Byte}
    (h : Memory.read (if b = 0 then s.symLow else s.symHigh) i = some x) : symbolAt b s i = x := by
  rw [symbolAt]
  split at h
  · rw [if_pos ‹_›, sampleAt_of_read h]
  · rw [if_neg ‹_›, sampleAt_of_read h]

/-! #### Whole cycles -/

/-- `c` whole cycles of the sample function at `N` samples per cycle. -/
def cycles (N c : Nat) : List Byte := (List.range (N * c)).map fun k => sample (k % N) N

theorem cycles_add (N c d : Nat) : cycles N (c + d) = cycles N c ++ cycles N d := by
  simp only [cycles, Nat.mul_add, List.range_add, List.map_append, List.map_map, Function.comp_def,
    Nat.mul_add_mod]

theorem cycles_eq_replicate (N c : Nat) : cycles N c = (List.replicate c (cycles N 1)).flatten := by
  induction c with
  | zero => rfl
  | succ c ih => rw [Nat.add_comm, cycles_add, List.replicate_add, List.flatten_append, ← ih,
    List.replicate_one, List.flatten_singleton]

/-- An output whose sample k is S(k mod N, N) is a number of whole cycles. -/
theorem outputOf_eq_cycles {s : State} {N c : Nat} (hlen : u32 s.outLen = N * c)
    (h : ∀ k, k < u32 s.outLen → Memory.read s.out k = some (sample (k % N) N)) : outputOf s = cycles N c := by
  rw [outputOf, cycles, ← hlen]
  exact List.map_congr_left fun k hk => sampleAt_of_read (h k (List.mem_range.mp hk))

namespace Inv
variable {s : State} (hi : Inv s) (hv : s.symValid = true)
include hi hv

/-- ENCODE_BIT on a valid cache, told by index: the output is the bit's symbol, which is S (R134). -/
theorem encodeBit_output {b c : Word} (hok : encodeBitCode ⟨4, b, c⟩ (inFlight s 4 b c) = .ok) :
    ∃ t : State, exec .encodeBit (inFlight s 4 b c) = .next t ∧ t.ecode = 0 ∧
      u32 t.outLen = symbolLen b s * magnitude c ∧
      ∀ k, k < u32 t.outLen → Memory.read t.out k = some (sample (k % symbolLen b s) (symbolLen b s)) := by
  obtain ⟨out, L, hexec, hlen, _, hread⟩ := exec_encodeBit_of_ok (s := inFlight s 4 b c) rfl hi.legal hok
  refine ⟨_, hexec, rfl, hlen, fun k hk => (hread k hk).trans (congrArg some ?_)⟩
  have hsym := (hi.symbolOk hv b).read_mod k
  rw [← symbolLen_eq] at hsym
  exact symbolAt_of_read (s := inFlight s 4 b c) hsym

/-- ENCODE_BIT on a valid cache succeeds when its output fits, and outputs whole cycles (R136). -/
theorem exec_encodeBit {b c : Word} (hb : b = 0 ∨ b = 1) (hc : 0 < c.toInt)
    (hfit : symbolLen b s * c.toInt ≤ s.params.outCap) :
    ∃ t : State, exec .encodeBit (inFlight s 4 b c) = .next t ∧ t.ecode = 0 ∧
      outputOf t = cycles (symbolLen b s) (magnitude c) := by
  have hok : encodeBitCode ⟨4, b, c⟩ (inFlight s 4 b c) = .ok := by
    rw [encodeBitCode_of_bit (s := inFlight s 4 b c) hv (toInt_isBit.mpr hb), if_neg hc.not_ge]
    exact if_neg hfit.not_gt
  obtain ⟨t, hexec, he, hlen, hread⟩ := hi.encodeBit_output hv hok
  exact ⟨t, hexec, he, outputOf_eq_cycles hlen hread⟩

end Inv

end Sys2Proof.Machine
end

section
/-! The statements of the symbol cache (41_fsk_symbol_cache.md). -/

open Sys2Proof Sys2Proof.Machine

/-- Settles O16, check by check in the order of R195; in the last case both arrays are filled up to their length. -/
theorem cfgFskResult : Obligations.CfgFskResult := by
  refine ⟨decodeWord_encode .cfgFsk, ?_⟩
  rintro s q _ _ _ hq hlegal rfl rfl rfl
  refine ⟨fun hr => ?_, fun hr hf => ?_, fun hr hl hh heq => ?_, fun hr hl hh hne hny => ?_,
    fun hr hl hh hne hnl hnh hsym => ?_, fun hr hl hh hne hnl hnh hsl hsh => ?_⟩
  · exact exec_of_error (c := .seqRate) hq (by simp [codeOf, cfgFskCode, hr]) (by decide)
  · exact exec_of_error (c := .argFreq) hq (by simp [codeOf, cfgFskCode, nonPositive_toInt, hr, hf]) (by decide)
  · exact exec_of_error (c := .argFskEqual) hq (by rw [codeOf, cfgFskCode_of_pos hr hl hh, if_pos heq]) (by decide)
  · exact exec_of_error (c := .argNyquist) hq
      (by rw [codeOf, cfgFskCode_of_pos hr hl hh, if_neg hne, if_pos hny]) (by decide)
  · exact exec_of_error (c := .capSym) hq
      (by rw [codeOf, cfgFskCode_of_pos hr hl hh, if_neg hne, if_neg (by omega), if_pos hsym]) (by decide)
  · have hok : cfgFskCode q s = .ok := by
      rw [cfgFskCode_of_pos hr hl hh, if_neg hne, if_neg (by omega), if_neg (by omega)]
    have hcap := Params.caps_of_legal hlegal
    have hNl := samplesPerCycle_toInt s.sampleRate hl
    have hNh := samplesPerCycle_toInt s.sampleRate hh
    have hl32 : samplesPerCycle s.sampleRate q.a0 < 2 ^ 32 := by omega
    have hh32 : samplesPerCycle s.sampleRate q.a1 < 2 ^ 32 := by omega
    refine ⟨_, _, _, _, exec_of_ok hq hok, ?_, ?_, Memory.read_fill_ofNat _ sample hl32,
      Memory.read_fill_ofNat _ sample hh32⟩
    · exact (congrArg Nat.cast (u32_ofNat hl32)).trans hNl
    · exact (congrArg Nat.cast (u32_ofNat hh32)).trans hNh

/-- Settles O17, check by check in the order of R195; the last case is `exec_encodeBit_of_ok`. -/
theorem encodeBitResult : Obligations.EncodeBitResult := by
  refine ⟨decodeWord_encode .encodeBit, ?_⟩
  rintro s q _ _ L sym hq hlegal rfl rfl hlow hhigh
  have hsym : q.a0.toInt = 0 ∨ q.a0.toInt = 1 → L = symbolLen q.a0 s ∧ sym = symbolAt q.a0 s := by
    intro hb
    rcases toInt_isBit.mp hb with h | h <;> rw [h] at hlow hhigh ⊢
    · exact hlow rfl
    · exact hhigh rfl
  refine ⟨fun hv => ?_, fun hv h0 h1 => ?_, fun hv hb hc => ?_, fun hv hb hc hout => ?_, fun hv hb hc hout => ?_⟩
  · exact exec_of_error (c := .seqFsk) hq (by simp [codeOf, encodeBitCode, hv]) (by decide)
  · exact exec_of_error (c := .argBit) hq (by simp [codeOf, encodeBitCode, s32_eq_toInt, hv, h0, h1]) (by decide)
  · exact exec_of_error (c := .argCount) hq (by rw [codeOf, encodeBitCode_of_bit hv hb, if_pos hc]) (by decide)
  · obtain ⟨rfl, rfl⟩ := hsym hb
    exact exec_of_error (c := .capOut) hq
      (by rw [codeOf, encodeBitCode_of_bit hv hb, if_neg hc.not_ge, if_pos hout]) (by decide)
  · obtain ⟨rfl, rfl⟩ := hsym hb
    have hok : encodeBitCode q s = .ok := by
      rw [encodeBitCode_of_bit hv hb, if_neg hc.not_ge, if_neg hout.not_gt]
    obtain ⟨m, len, hexec, hlen, hwf, hread⟩ := exec_encodeBit_of_ok hq hlegal hok
    exact ⟨m, len, hexec, by rw [hlen, Nat.cast_mul, magnitude_toInt hc], hwf, hread⟩

/-- Settles O40, by whose turn it is: of the ends of a completion only the success of CFG_RATE and of CFG_FSK writes
the cache. -/
theorem cacheFixedBetweenConfigurations : Obligations.CacheFixedBetweenConfigurations := by
  intro s t h hne
  rcases step_cases_by_turn h with ⟨_, rfl⟩ | ⟨hn, hc⟩ | ⟨hn, rfl⟩
  · exact absurd (cacheOf_hostStep (dropTurn s)) hne
  · rcases completionStep_next hc with rfl | ⟨_, _, rfl⟩ | ⟨q, i, hq, hw, _, rfl⟩
    · exact absurd rfl hne
    · exact absurd rfl hne
    · refine .inr ⟨hn, rfl, q, hq, ?_⟩
      rcases effectOf_cache (s := dropTurn s) hne with rfl | rfl
      · exact .inl hw
      · exact .inr hw
  · exact .inl hn

/-- Settles O54: both symbols are valid ones, and a valid symbol is one cycle of WAVE. -/
theorem symbolIsOneCycleOfWave : Obligations.SymbolIsOneCycleOfWave := by
  intro s t fl fh hlegal h he
  obtain ⟨hok, rfl⟩ := exec_succeeds (s := inFlight s 3 fl fh) rfl h he
  obtain ⟨hr, _⟩ := cfgFskCode_ok.mp hok
  obtain ⟨hlow, hhigh⟩ := cfgFskEffect_symbols (s := inFlight s 3 fl fh) hlegal hok
  obtain ⟨u, hu, heu, hlu, hmu⟩ := SymbolOk.oneCycle (s := s) hlegal hr hlow
  obtain ⟨w, hw, hew, hlw, hmw⟩ := SymbolOk.oneCycle (s := s) hlegal hr hhigh
  exact ⟨u, w, hu, heu, hlu, hmu, hw, hew, hlw, hmw⟩

/-- Settles O55: the output is S by index, and the cached symbol holds S. -/
theorem encodedOutputByIndex : Obligations.EncodedOutputByIndex := by
  rintro s t b c L hi hv _ hlen h he
  obtain rfl : L = symbolLen b s := hlen
  obtain ⟨hok, _⟩ := exec_succeeds (s := inFlight s 4 b c) rfl h he
  obtain ⟨_, _, hc, _⟩ := encodeBitCode_ok.mp hok
  obtain ⟨t', ht', _, hlen, hread⟩ := hi.encodeBit_output hv hok
  obtain rfl : t = t' := Host.Outcome.next.inj (h.symm.trans ht')
  have hsym := (hi.symbolOk hv b).read_mod
  rw [← symbolLen_eq] at hsym
  refine ⟨?_, fun k hk => ⟨hread k hk, (hread k hk).trans (hsym k).symm⟩⟩
  rw [s32_eq_toInt] at hc
  rw [← magnitude_toInt hc]
  exact_mod_cast hlen

/-- Settles O56: every output named is a number of whole cycles, and whole cycles add up. -/
theorem replicationLaws : Obligations.ReplicationLaws := by
  rintro s b _ L hi hv hb rfl hlen
  obtain rfl : L = symbolLen b s := hlen
  refine ⟨fun c d e hc hd he hfit => ?_, fun hfit => ?_, fun c hc hfit => ?_⟩
  · have hL : (0 : Int) ≤ symbolLen b s := Int.natCast_nonneg _
    obtain ⟨x, hx, hex, hox⟩ := hi.exec_encodeBit hv hb hc
      ((Int.mul_le_mul_of_nonneg_left (by omega) hL).trans hfit)
    obtain ⟨y, hy, hey, hoy⟩ := hi.exec_encodeBit hv hb hd
      ((Int.mul_le_mul_of_nonneg_left (by omega) hL).trans hfit)
    obtain ⟨z, hz, hez, hoz⟩ := hi.exec_encodeBit hv hb (by omega : 0 < e.toInt) hfit
    have hmag : magnitude e = magnitude c + magnitude d := by
      have hme := magnitude_toInt (by omega : 0 < e.toInt)
      have hmc := magnitude_toInt hc
      have hmd := magnitude_toInt hd
      omega
    exact ⟨x, y, z, hx, hex, hy, hey, hz, hez, by rw [hox, hoy, hoz, hmag, cycles_add]⟩
  · have hfit8 : (symbolLen b s : Int) * (8 : Word).toInt ≤ s.params.outCap := by
      rw [show (8 : Word).toInt = 8 from rfl]
      exact_mod_cast hfit
    have hfit1 : (symbolLen b s : Int) * (1 : Word).toInt ≤ s.params.outCap :=
      (Int.mul_le_mul_of_nonneg_left (by decide) (Int.natCast_nonneg _)).trans hfit8
    obtain ⟨x, hx, hex, hox⟩ := hi.exec_encodeBit hv hb (by decide) hfit1
    obtain ⟨z, hz, hez, hoz⟩ := hi.exec_encodeBit hv hb (by decide) hfit8
    exact ⟨x, z, hx, hex, hz, hez, by rw [hox, hoz]; exact cycles_eq_replicate _ 8⟩
  · obtain ⟨x, hx, hex, hox⟩ := hi.exec_encodeBit hv hb hc hfit
    rw [symbolLen_eq] at hfit hox
    rw [← magnitude_toInt hc] at hfit
    obtain ⟨z, hz, hez, hlen, hread⟩ := (hi.symbolOk hv b).wave_output hi.legal (hi.rateValid_of_symValid hv)
      (by rwa [s32_eq_toInt]) (by exact_mod_cast hfit)
    exact ⟨x, z, hx, hex, hz, hez, by rw [hox, outputOf_eq_cycles hlen hread]⟩

/-- Settles O58: the checks treat the two frequencies alike, and a symbol is fixed by its frequency and the rate. -/
theorem lowAndHighAreLabels : Obligations.LowAndHighAreLabels := by
  intro s t fl fh hlegal h
  have hcode : codeOf .cfgFsk ⟨3, fh, fl⟩ (inFlight s 3 fh fl) = codeOf .cfgFsk ⟨3, fl, fh⟩ (inFlight s 3 fl fh) :=
    cfgFskCode_swap 3 fl fh s
  refine ⟨_, exec_eq .cfgFsk rfl, ?_, fun he => ?_⟩
  · rw [exec_eq (s := inFlight s 3 fl fh) .cfgFsk rfl] at h
    cases h
    rw [finish_ecode, finish_ecode, hcode]
  · obtain ⟨hok, rfl⟩ := exec_succeeds (s := inFlight s 3 fl fh) rfl h he
    rw [finish_ok (hcode.trans hok)]
    obtain ⟨hlow, hhigh⟩ := cfgFskEffect_symbols (s := inFlight s 3 fl fh) hlegal hok
    obtain ⟨hlow', hhigh'⟩ := cfgFskEffect_symbols (s := inFlight s 3 fh fl) hlegal (hcode.trans hok)
    refine ⟨rfl, rfl, fun i hi => ?_, fun i hi => ?_⟩
    · exact (hhigh'.contents i hi).trans (hlow.contents i hi).symm
    · exact (hlow'.contents i hi).trans (hhigh.contents i hi).symm
end

section
/-! What the register access statements rest on (R160 … R175): the refusals by shape, by BUSY and by register, the
reserved word, and the rules of STATUS, SYM_SIZE, RD_PTR and OUT_DATA on numbers and bits. -/

namespace Sys2Proof

/-- The registers that no access writes (R168). -/
def Reg.readOnly : List Reg :=
  [.sampleRate, .freqLow, .freqHigh, .lenLow, .lenHigh, .symSize, .outLen, .symCap, .outCap]

theorem Reg.at?_reserved : Reg.at? 0x3C = none := by decide

namespace Machine

/-- The shape check lets through exactly the aligned 32-bit accesses (R63, R175). -/
theorem badShape_iff {off n : Nat} : badShape off n = true ↔ n ≠ 4 ∨ off % 4 ≠ 0 := by
  rw [badShape, Bool.or_eq_true, decide_eq_true_iff, decide_eq_true_iff]

theorem writeWindow_badShape {off n : Nat} (h : badShape off n = true) (v : Word) (s : State) :
    writeWindow off n v s = accessError s := by
  rw [writeWindow, if_pos h]

theorem readWindow_badShape {off n : Nat} (h : badShape off n = true) (s : State) :
    readWindow off n s = (0, accessError s) := by
  rw [readWindow, if_pos h]

/-- An aligned 32-bit read while BUSY = 1, other than of STATUS (R174). -/
theorem readWindow_busy {s : State} (hb : s.busy = true) {off : Nat} (halign : off % 4 = 0)
    (hoff : off ≠ Reg.status.off) : readWindow off 4 s = ((drawWord s).1, accessError (drawWord s).2) := by
  have hshape : ¬ badShape off 4 = true := by simp [badShape_iff, halign]
  rw [readWindow, if_neg hshape, if_pos (by simp [hb, hoff])]

theorem readWindow_reserved {s : State} (hb : s.busy = false) : readWindow 0x3C 4 s = (0, accessError s) := by
  rw [readWindow, hb, Reg.at?_reserved]
  rfl

theorem writeWindow_reserved (s : State) (v : Word) : writeWindow 0x3C 4 v s = accessError s := by
  rcases writeWindow_refused_or_reg 0x3C 4 v s with h | ⟨_, _, r, hr, _⟩
  · exact h
  · cases r <;> cases hr

/-- A write that the register's rule refuses is refused whether BUSY is 0 or 1. -/
theorem writeAt_refused {s : State} {v : Word} {r : Reg} (h : writeReg v s r = accessError s) :
    writeAt s r.off 4 v = accessError s := by
  rcases hb : s.busy
  · rw [writeAt_reg hb, h]
  · rw [writeAt_eq s 4 v (Reg.off_lt r), writeWindow_busy hb]

theorem writeReg_readOnly (v : Word) (s : State) : ∀ r ∈ Reg.readOnly, writeReg v s r = accessError s := by
  simp [Reg.readOnly, writeReg]

/-- STATUS bit by bit: the four flags, then ECODE, then zeros (R165). -/
theorem getLsbD_statusWord (s : State) (i : Nat) :
    (statusWord s).getLsbD i =
      if i = 0 then s.busy else if i = 1 then s.aerr else if i = 2 then s.rateValid else if i = 3 then s.symValid
      else s.ecode.getLsbD (i - 4) := by
  simp only [statusWord, BitVec.getLsbD_setWidth, BitVec.getLsbD_append, BitVec.getLsbD_ofBool]
  rcases i with _ | _ | _ | _ | j
  case succ.succ.succ.succ =>
    have hwidth : s.ecode.getLsbD j = true → j + 4 < 32 := by
      intro h
      have hj := BitVec.lt_of_getLsbD h
      omega
    simpa using hwidth
  all_goals simp

theorem getLsbD_statusWord_of_ge (s : State) {i : Nat} (h : 4 ≤ i) :
    (statusWord s).getLsbD i = s.ecode.getLsbD (i - 4) := by
  rw [getLsbD_statusWord, if_neg (by omega), if_neg (by omega), if_neg (by omega), if_neg (by omega)]

theorem resultCode_statusWord (s : State) : resultCode (statusWord s) = s.ecode := by
  ext i hi
  rw [resultCode, BitVec.getElem_extractLsb', getLsbD_statusWord_of_ge s (by omega), Nat.add_sub_cancel_left,
    BitVec.getLsbD_eq_getElem hi]

theorem statusWord_reserved (s : State) : (statusWord s).extractLsb' 8 24 = 0 := by
  ext i hi
  rw [BitVec.getElem_extractLsb', getLsbD_statusWord_of_ge s (by omega), BitVec.getLsbD_of_ge _ _ (by omega)]
  simp

/-- SYM_SIZE as a number (R36, R135). -/
theorem symSize_toNat (s : State) :
    (symSize s).toNat = if s.symValid then max s.lenLow.toNat s.lenHigh.toNat else 0 := by
  rw [symSize]
  split
  · split
    · rw [max_eq_right ‹_›]
    · rw [max_eq_left (by omega)]
  · rfl

theorem readOutData_of_lt {s : State} (h : s.rdPtr.toNat < s.outLen.toNat) :
    readOutData s = (sext32 (sampleAt .out s.out s.rdPtr.toNat), { s with rdPtr := s.rdPtr + 1 }) :=
  if_pos h

theorem readOutData_of_le {s : State} (h : s.outLen.toNat ≤ s.rdPtr.toNat) : readOutData s = (0, accessError s) :=
  if_neg h.not_gt

/-- Below OUT_LEN the cursor does not wrap (R171). -/
theorem toNat_rdPtr_add_one {s : State} (h : s.rdPtr.toNat < s.outLen.toNat) :
    (s.rdPtr + 1).toNat = s.rdPtr.toNat + 1 := by
  have hmax := s.outLen.isLt
  exact BitVec.toNat_add_of_lt (by simp; omega)

theorem writeRdPtr_of_le {v : Word} {s : State} (h : v.toNat ≤ s.outLen.toNat) :
    writeRdPtr v s = { s with rdPtr := v } :=
  if_pos h

theorem writeRdPtr_of_lt {v : Word} {s : State} (h : s.outLen.toNat < v.toNat) : writeRdPtr v s = accessError s :=
  if_neg h.not_ge

theorem writeStatus_eq (v : Word) (s : State) :
    writeStatus v s = { s with aerr := if v.getLsbD 1 then false else s.aerr } := by
  rw [writeStatus]
  split <;> rfl

/-- OUT_LEN keeps bit 31 clear, so a value with it set lies beyond (R4, R45 item 5, R170). -/
theorem Inv.outLen_lt_of_bit31 {s : State} (hi : Inv s) {v : Word} (hv : v.getLsbD 31 = true) :
    s.outLen.toNat < v.toNat := by
  have hcap := (Params.caps_of_legal hi.legal).2
  have hlen : s.outLen.toNat ≤ s.params.outCap := hi.cursor.2
  have hbig : 2 ^ 31 ≤ v.toNat := Nat.ge_two_pow_of_testBit hv
  omega

end Machine

end Sys2Proof
end

section
/-! The register access statements (42_register_access.md). -/

open Sys2Proof Sys2Proof.Machine

/-- Settles O21, by the write rule of CMD. -/
theorem cmdWriteIssues : Obligations.CmdWriteIssues :=
  fun _ v hb => writeAt_reg hb v .cmd

/-- Settles O22, by the read rule of CMD; reset leaves BUSY at 0 and CMD_LAST at 0. -/
theorem cmdReadReturnsLastIssued : Obligations.CmdReadReturnsLastIssued :=
  ⟨fun _ hb => readAt_reg hb .cmd, fun p => congrArg State.reads (readAt_reg (initial_busy p) .cmd)⟩

/-- Settles O23, by the write rules of ARG0 and ARG1. -/
theorem argWritesStore : Obligations.ArgWritesStore :=
  fun _ v hb => ⟨writeAt_reg hb v .arg0, writeAt_reg hb v .arg1⟩

/-- Settles O24, by the read rules of ARG0 and ARG1. -/
theorem argReadsReturn : Obligations.ArgReadsReturn :=
  fun _ hb => ⟨readAt_reg hb .arg0, readAt_reg hb .arg1⟩

/-- Settles O25: the read returns `statusWord`, whose fields stand at their places. -/
theorem statusReadShowsFields : Obligations.StatusReadShowsFields := by
  intro s
  refine ⟨statusWord s, ?_, resultCode_statusWord s, getLsbD_statusWord s 3, getLsbD_statusWord s 2,
    getLsbD_statusWord s 1, getLsbD_statusWord s 0, statusWord_reserved s⟩
  exact (readAt_eq s 4 (Reg.off_lt .status)).trans (by rw [readWindow_status]; rfl)

/-- Settles O26: the write rule of STATUS while BUSY = 0, the refusal of every write while BUSY = 1. -/
theorem statusWriteClearsAerr : Obligations.StatusWriteClearsAerr := by
  refine fun s v => ⟨fun hb => ?_, fun hb => ?_⟩
  · exact (writeAt_reg hb v .status).trans (writeStatus_eq v s)
  · exact (writeAt_eq s 4 v (Reg.off_lt .status)).trans (writeWindow_busy hb _ _ _)

/-- Settles O27, register by register. -/
theorem readOnlyRegistersRead : Obligations.ReadOnlyRegistersRead :=
  fun s hb => ⟨readAt_reg hb .sampleRate, readAt_reg hb .freqLow, readAt_reg hb .freqHigh, readAt_reg hb .lenLow,
    readAt_reg hb .lenHigh, ⟨symSize s, readAt_reg hb .symSize, symSize_toNat s⟩, readAt_reg hb .outLen,
    readAt_reg hb .symCap, readAt_reg hb .outCap⟩

/-- Settles O28: the nine offsets are those of the read-only registers, and each refuses every write. -/
theorem readOnlyRegistersRefuseWrites : Obligations.ReadOnlyRegistersRefuseWrites := by
  intro s v off hoff
  obtain ⟨r, hr, rfl⟩ : ∃ r ∈ Reg.readOnly, r.off = off := List.mem_map.mp hoff
  exact writeAt_refused (writeReg_readOnly v s r hr)

/-- Settles O29, by the read rule of RD_PTR. -/
theorem cursorRead : Obligations.CursorRead :=
  fun _ hb => readAt_reg hb .rdPtr

/-- Settles O30: the two branches of the write rule of RD_PTR; the invariant keeps OUT_LEN below 2^31. -/
theorem cursorWrite : Obligations.CursorWrite := by
  intro s v hb
  have hrule : writeAt s 0x2C 4 v = writeRdPtr v s := writeAt_reg hb v .rdPtr
  refine ⟨fun hle => ?_, fun hlt => ?_, fun hi hv => ?_⟩
  · exact hrule.trans (writeRdPtr_of_le hle)
  · exact hrule.trans (writeRdPtr_of_lt hlt)
  · exact hrule.trans (writeRdPtr_of_lt (hi.outLen_lt_of_bit31 hv))

/-- Settles O31: the two branches of the read rule of OUT_DATA; below OUT_LEN the cursor does not wrap. -/
theorem outDataRead : Obligations.OutDataRead := by
  intro s hb
  have hrule : readAt s 0x30 4 = observe (readOutData s).1 (readOutData s).2 := readAt_reg hb .outData
  refine ⟨fun hlt => ⟨sext32 (sampleAt .out s.out s.rdPtr.toNat), s.rdPtr + 1, ?_, toNat_rdPtr_add_one hlt, ?_⟩,
    fun hle => ?_⟩
  · rw [hrule, readOutData_of_lt hlt]
    rfl
  · exact BitVec.toInt_signExtend_of_le (by decide)
  · rw [hrule, readOutData_of_le hle]
    rfl

/-- Settles O32: the write rule of OUT_DATA refuses, busy or not. -/
theorem outDataRefusesWrites : Obligations.OutDataRefusesWrites :=
  fun _ _ => writeAt_refused (r := .outData) rfl

/-- Settles O33: no register stands at the reserved offset. -/
theorem reservedOffset : Obligations.ReservedOffset := by
  refine fun s v hb => ⟨?_, ?_⟩
  · rw [readAt_eq s 4 (by decide), readWindow_reserved hb]
    rfl
  · rw [writeAt_eq s 4 v (by decide), writeWindow_reserved]
    rfl

/-- Settles O34, by the refusal of R174 for each direction; the value read is the one drawn. -/
theorem busyRefusesAccess : Obligations.BusyRefusesAccess := by
  refine fun s v off hb hoff halign => ⟨?_, fun hne => ⟨(drawWord s).1, ?_⟩⟩
  · rw [writeAt_eq s 4 v hoff, writeWindow_busy hb]
    rfl
  · rw [readAt_eq s 4 hoff, readWindow_busy hb halign hne]
    rfl

/-- Settles O35: the shape is checked before BUSY, for each direction. -/
theorem badShapeIsRefused : Obligations.BadShapeIsRefused := by
  intro s v off n hoff hbad
  have hshape : badShape off n = true := badShape_iff.mpr hbad
  constructor
  · rw [writeAt_eq s n v hoff, writeWindow_badShape hshape]
    rfl
  · rw [readAt_eq s n hoff, readWindow_badShape hshape]
    rfl
end

section
/-! What the statement of the failing completion rests on: a nonzero code says that no effect was taken over. -/

namespace Sys2Proof.Machine

/-- A completion that ends with an error code has failed a check, and leaves the end of R193 alone. -/
theorem finish_eq_ended {c : Code} {e s : State} (h : (finish c e s).ecode ≠ 0) :
    finish c e s = ended s (finish c e s).ecode := by
  have hc : c ≠ .ok := fun hok => h ((finish_ecode c).trans (Code.bits_eq_zero.mpr hok))
  rw [finish_error hc]
  rfl

end Sys2Proof.Machine
end

section
/-! The statement of the exceptions (60_exceptions.md). -/

open Sys2Proof Sys2Proof.Machine

/-- Settles O18, by the cases of the completion step: an illegal word ends with ILLEGAL_CMD, a command as its
checks decide. -/
theorem failedCommandChangesOnlyItsCode : Obligations.FailedCommandChangesOnlyItsCode := by
  intro s t q hq h hcode
  rcases completionStep_cases s with ⟨hnone, _⟩ | ⟨_, _, _, _, hrejected⟩ | ⟨_, _, _, _, hcommand⟩
  · cases hnone.symm.trans hq
  · cases hrejected.symm.trans h
    rfl
  · cases hcommand.symm.trans h
    exact finish_eq_ended hcode
end

section
/-! What the statements about turns, completions and polls rest on: the step at each agent's turn, the host's
operations one by one, the frame of a completion and of a host step while BUSY = 1, and the last word on a poll. -/

namespace Sys2Proof

/-- A word decodes to a command exactly when it is the command's own word (R82). -/
theorem decodeWord_eq_ok_iff {w : Word} {i : Instr} : decodeWord w = .ok i ↔ w = encode i := by
  constructor
  · exact Machine.eq_encode_of_decodeWord
  · rintro rfl
    exact decodeWord_encode i

/-- Fewer than four bytes hold no word (R62). -/
theorem wordOfBytes_of_short {bs : List Byte} (h : bs.length < 4) : wordOfBytes bs = none := by
  match bs, h with
  | [], _ => rfl
  | [_], _ => rfl
  | [_, _], _ => rfl
  | [_, _, _], _ => rfl
  | _ :: _ :: _ :: _ :: _, h => simp only [List.length_cons] at h; omega

/-- Byte k of a word is its bits [8k+7:8k] (R62). -/
theorem getElem?_bytesOfWord (w : Word) {k : Nat} (h : k < 4) :
    (bytesOfWord w)[k]? = some (w.extractLsb' (8 * k) 8) := by
  match k, h with
  | 0, _ => rfl
  | 1, _ => rfl
  | 2, _ => rfl
  | 3, _ => rfl

namespace Machine

/-! #### The step at each agent's turn -/

theorem step_host {s : State} (h : nextTurn s = .host) : step s = .next (hostStep (dropTurn s)) := by
  rw [step, h, takeTurn]

theorem step_block {s : State} (h : nextTurn s = .block) : step s = completionStep (dropTurn s) := by
  rw [step, h, takeTurn]

theorem step_reset {s : State} (h : nextTurn s = .reset) : step s = .next (platformReset (dropTurn s)) := by
  rw [step, h, takeTurn]

theorem step_foreign {s : State} {a : Access} (h : nextTurn s = .foreign a) : step s = .refused .sharedInstance := by
  rw [step, h, takeTurn]

/-- The default turn is never a second master's: such a turn stands in the interleaving. -/
theorem head?_of_nextTurn_foreign {s : State} {a : Access} (h : nextTurn s = .foreign a) :
    s.turns.head? = some (.foreign a) := by
  rcases ht : s.turns with _ | ⟨t, ts⟩
  · rw [nextTurn_of_nil ht] at h
    split at h <;> cases h
  · rw [nextTurn, ht] at h
    exact congrArg some h

theorem nextTurn_block {s : State} {q : Inflight} (ht : s.turns = [] ∨ s.turns.head? = some .block)
    (hq : s.inflight = some q) : nextTurn s = .block := by
  rcases ht with ht | ht
  · rw [nextTurn_of_nil ht, hq]
    rfl
  · exact nextTurn_of_head ht

theorem nextTurn_host {s : State} (h : s.turns.head? = some .host ∨ (s.turns = [] ∧ s.inflight = none)) :
    nextTurn s = .host := by
  rcases h with ht | ⟨ht, hidle⟩
  · exact nextTurn_of_head ht
  · rw [nextTurn_of_nil ht, hidle]
    rfl

/-! #### The host's operations -/

theorem hostStep_idle {s : State} (h : s.host = []) : hostStep s = s := by
  rw [hostStep, h]

theorem hostStep_access {s : State} {a : Access} {rest : List HostOp} (h : s.host = .access a :: rest) :
    hostStep s = performAccess a { s with host := rest } := by
  rw [hostStep, h]

theorem busyBit_statusWord (s : State) : busyBit (statusWord s) = s.busy := getLsbD_statusWord s 0

/-- A poll reads STATUS, and is over once BUSY reads 0 (R86). -/
theorem hostStep_poll {s : State} {rest : List HostOp} (h : s.host = .poll :: rest) :
    hostStep s = { s with reads := statusWord s :: s.reads, host := if s.busy then .poll :: rest else rest } := by
  rw [hostStep, h]
  simp only [pollStatus, readWindow_status, busyBit_statusWord]
  by_cases hb : s.busy = true
  · rw [if_pos hb, if_pos hb, ← h]
    rfl
  · rw [if_neg hb, if_neg hb]
    rfl

theorem inWindow_outside {p : Params} {addr : Nat} (h : addr < p.blockBase ∨ p.blockBase + 0x3F < addr) :
    inWindow p addr = false := by
  rw [inWindow, Bool.and_eq_false_iff, decide_eq_false_iff_not, decide_eq_false_iff_not]
  omega

/-- While BUSY = 1 an access does nothing to the block, or is refused (R174). -/
theorem HostEffect.of_busy {s t : State} (h : HostEffect s t) (hb : s.busy = true) : t = s ∨ t = accessError s := by
  cases h with
  | nothing => exact .inl rfl
  | refused => exact .inr rfl
  | issued _ hn | arg0 _ hn | arg1 _ hn | cleared hn | moved _ hn _ | advanced hn _ => cases hn.symm.trans hb

/-- While BUSY = 1 a host step changes AERR and the host's own fields only, and AERR only upward (R174, R197). -/
theorem hostStep_of_busy {s : State} (hb : s.busy = true) :
    hostStep s = { s with aerr := (hostStep s).aerr, host := (hostStep s).host, reads := (hostStep s).reads,
                          draws := (hostStep s).draws } ∧
      (s.aerr = true → (hostStep s).aerr = true) := by
  obtain ⟨t, p, r, d, ht, e⟩ := hostStep_cases s
  rw [e]
  rcases ht.of_busy hb with rfl | rfl
  · exact ⟨rfl, id⟩
  · exact ⟨rfl, fun _ => rfl⟩

/-! #### The completion step -/

theorem completionStep_of_ok {s : State} {q : Inflight} {i : Instr} (hq : s.inflight = some q)
    (hi : decodeWord q.c = .ok i) : completionStep s = exec i s := by
  simp only [completionStep, hq, hi]

/-- The block's turn never stops the machine (R198). -/
theorem completionStep_answers (s : State) : ∃ t, completionStep s = .next t := by
  rcases completionStep_cases s with ⟨_, e⟩ | ⟨_, _, _, _, e⟩ | ⟨_, _, _, _, e⟩ <;> exact ⟨_, e⟩

/-- The only fields that a completion can change. -/
theorem completionStep_frame {s t : State} (h : completionStep s = .next t) :
    t = { s with busy := t.busy, rateValid := t.rateValid, symValid := t.symValid, ecode := t.ecode,
                 sampleRate := t.sampleRate, freqLow := t.freqLow, freqHigh := t.freqHigh, lenLow := t.lenLow,
                 lenHigh := t.lenHigh, outLen := t.outLen, rdPtr := t.rdPtr, symLow := t.symLow,
                 symHigh := t.symHigh, out := t.out, inflight := t.inflight } := by
  rcases completionStep_next h with rfl | ⟨_, _, rfl⟩ | ⟨_, i, _, _, _, rfl⟩
  · rfl
  · rfl
  · cases i <;> rfl

/-- A command in flight is ended by one completion step, with a code of R192 (R190, R191). -/
theorem completionStep_ends {s : State} {q : Inflight} (hq : s.inflight = some q) :
    ∃ t, completionStep s = .next t ∧ t.inflight = none ∧ t.busy = false ∧ t.ecode ≤ 0xB#4 := by
  rcases completionStep_cases s with ⟨hnone, _⟩ | ⟨_, _, _, _, e⟩ | ⟨q', i, _, _, e⟩
  · cases hnone.symm.trans hq
  · exact ⟨_, e, rfl, rfl, Code.bits_le .illegalCmd⟩
  · obtain ⟨hnone, hidle⟩ := finish_ends (codeOf i q' s) (e := effectOf i q' s) (s := s)
    exact ⟨_, e, hnone, hidle, by rw [finish_ecode]; exact Code.bits_le _⟩

/-! #### Operands written after the issue -/

/-- `s` with other values in ARG0, ARG1 and CMD_LAST. -/
def withOperands (x y z : Word) (s : State) : State := { s with arg0 := x, arg1 := y, cmdLast := z }

theorem codeOf_withOperands (i : Instr) (q : Inflight) (x y z : Word) (s : State) :
    codeOf i q (withOperands x y z s) = codeOf i q s := by
  cases i <;> rfl

theorem effectOf_withOperands (i : Instr) (q : Inflight) (x y z : Word) (s : State) :
    effectOf i q (withOperands x y z s) = withOperands x y z (effectOf i q s) := by
  cases i <;> rfl

theorem finish_withOperands (c : Code) (x y z : Word) (e s : State) :
    finish c (withOperands x y z e) (withOperands x y z s) = withOperands x y z (finish c e s) := by
  rw [finish, finish]
  split <;> rfl

/-- A completion reads the latched operands only (R44, R69). -/
theorem completionStep_withOperands {s t : State} (x y z : Word) (h : completionStep s = .next t) :
    completionStep (withOperands x y z s) = .next (withOperands x y z t) := by
  have hlatch : (withOperands x y z s).inflight = s.inflight := rfl
  rcases completionStep_cases s with ⟨hq, e⟩ | ⟨q, _, hq, hd, e⟩ | ⟨q, i, hq, hd, e⟩ <;> rw [e] at h <;> cases h
  · simp only [completionStep, hlatch, hq]
  · simp only [completionStep, hlatch, hq, hd]
    rfl
  · rw [completionStep_of_ok (hlatch.trans hq) hd, exec_eq i (hlatch.trans hq), codeOf_withOperands,
      effectOf_withOperands, finish_withOperands]

/-! #### Polls -/

/-- A state that is about to poll steps on, by whichever agent, and still has the poll next or is past it. -/
theorem step_polling {s : State} {rest : List HostOp} (hone : OneHost s) (hpoll : s.host = .poll :: rest) :
    ∃ t, step s = .next t ∧ t.turns = s.turns.tail ∧ (t.host = .poll :: rest ∨ t.host = rest) := by
  rcases hn : nextTurn s with _ | _ | _ | a
  · refine ⟨_, step_host hn, ?_⟩
    rw [hostStep_poll (s := dropTurn s) hpoll]
    by_cases hb : s.busy = true
    · exact ⟨rfl, .inl (if_pos hb)⟩
    · exact ⟨rfl, .inr (if_neg hb)⟩
  · obtain ⟨t, ht⟩ := completionStep_answers (dropTurn s)
    refine ⟨t, (step_block hn).trans ht, ?_⟩
    rw [completionStep_frame ht]
    exact ⟨rfl, .inl hpoll⟩
  · exact ⟨_, step_reset hn, rfl, .inl hpoll⟩
  · exact absurd rfl (hone _ (List.mem_of_head? (head?_of_nextTurn_foreign hn)) a)

/-- With no interleaving left and nothing in flight, the very next step ends the poll. -/
theorem run_idle_poll {s : State} {rest : List HostOp} (ht : s.turns = []) (hidle : s.inflight = none)
    (hb : s.busy = false) (hpoll : s.host = .poll :: rest) :
    ∃ t, Host.Core.run core 1 s = .next t ∧ t.host = rest := by
  refine ⟨_, run_succ 0 (step_host (nextTurn_host (.inr ⟨ht, hidle⟩))), ?_⟩
  rw [hostStep_poll (s := dropTurn s) hpoll, dropTurn_busy, hb]
  rfl

/-- With no interleaving left a poll ends: a command in flight completes first. -/
theorem run_last_poll {s : State} {rest : List HostOp} (hi : Inv s) (ht : s.turns = [])
    (hpoll : s.host = .poll :: rest) :
    ∃ k t, k ≤ 2 ∧ Host.Core.run core k s = .next t ∧ t.host = rest := by
  rcases hq : s.inflight with _ | q
  · obtain ⟨t, hrun, hhost⟩ := run_idle_poll ht hq (by rw [hi.busy_iff, hq]; rfl) hpoll
    exact ⟨1, t, by decide, hrun, hhost⟩
  · obtain ⟨u, hu, hidle, hb, _⟩ := completionStep_ends (s := dropTurn s) hq
    have hframe := completionStep_frame hu
    have hturns : u.turns = [] := by
      rw [hframe]
      exact congrArg List.tail ht
    have hhost : u.host = .poll :: rest := by
      rw [hframe]
      exact hpoll
    obtain ⟨t, hrun, hrest⟩ := run_idle_poll hturns hidle hb hhost
    exact ⟨2, t, by decide, (run_succ 1 ((step_block (nextTurn_block (.inl ht) hq)).trans hu)).trans hrun, hrest⟩

/-- A poll ends, by induction on the turns still to come. -/
theorem run_poll (n : Nat) {s : State} {rest : List HostOp} (hn : s.turns.length = n) (hi : Inv s)
    (hone : OneHost s) (hpoll : s.host = .poll :: rest) :
    ∃ k t, k ≤ n + 2 ∧ Host.Core.run core k s = .next t ∧ t.host = rest := by
  induction n generalizing s with
  | zero => simpa using run_last_poll hi (List.length_eq_zero_iff.mp hn) hpoll
  | succ n ih =>
    obtain ⟨u, hu, hturns, hhost | hhost⟩ := step_polling hone hpoll
    · have hlen : u.turns.length = n := by rw [hturns, List.length_tail, hn, Nat.add_sub_cancel]
      have hone' : OneHost u := fun t ht => hone t (List.mem_of_mem_tail (hturns ▸ ht))
      obtain ⟨k, t, hk, hrun, hrest⟩ := ih hlen (hi.step hu) hone' hhost
      exact ⟨k + 1, t, by omega, (run_succ k hu).trans hrun, hrest⟩
    · exact ⟨1, u, by omega, run_succ 0 hu, hhost⟩

end Machine

end Sys2Proof
end

section
/-! The statements about the decoder, the step of each agent, reset, several blocks and polls. -/

open Sys2Proof Sys2Proof.Machine

/-- Settles O2: the decoder inverts the encoder, and only a command's own word decodes to it. -/
theorem decodeAndEncodeAgree : Obligations.DecodeAndEncodeAgree :=
  fun _ _ => decodeWord_eq_ok_iff

/-- Settles O3: four bytes hold their word again, and fewer hold none. -/
theorem bytesDecodeAsTheirWord : Obligations.BytesDecodeAsTheirWord := by
  refine ⟨fun w rest => ?_, fun bs h => ?_, fun w k hk => getElem?_bytesOfWord w hk⟩
  · rcases hd : decodeWord w with i | e <;> simp only [decodeBytes, wordOfBytes_bytesOfWord, hd]
  · simp only [decodeBytes, wordOfBytes_of_short h]

/-- Settles O13, by whose turn it is: the host's step, the completion and the reset all answer. -/
theorem stepNeverTraps : Obligations.StepNeverTraps := by
  intro s hone
  rcases hn : nextTurn s with _ | _ | _ | a
  · exact ⟨_, step_host hn⟩
  · obtain ⟨t, ht⟩ := completionStep_answers (dropTurn s)
    exact ⟨t, (step_block hn).trans ht⟩
  · exact ⟨_, step_reset hn⟩
  · exact absurd (head?_of_nextTurn_foreign hn) (hone a)

/-- Settles O19: `completionStep_ends`, with the frame of a completion. -/
theorem everyCommandCompletes : Obligations.EveryCommandCompletes := by
  intro s q hq
  obtain ⟨t, ht, hidle, hb, hcode⟩ := completionStep_ends hq
  refine ⟨t, ht, hidle, hb, hcode, ?_⟩
  rw [completionStep_frame ht]
  exact ⟨rfl, rfl, rfl, rfl, rfl, rfl, rfl, rfl, rfl⟩

/-- Settles O20: code and effects of a command read INFLIGHT, and neither ARG0, ARG1 nor CMD_LAST. -/
theorem completionIgnoresLaterOperands : Obligations.CompletionIgnoresLaterOperands :=
  fun _ _ _ x y z _ h => completionStep_withOperands x y z h

/-- Settles O37: while BUSY = 1 every access is refused or does nothing. -/
theorem hostCannotDisturbCommandInFlight : Obligations.HostCannotDisturbCommandInFlight := by
  intro s hb ht
  obtain ⟨hframe, haerr⟩ := hostStep_of_busy (s := dropTurn s) hb
  exact ⟨_, step_host (nextTurn_of_head ht), hframe, haerr⟩

/-- Settles O43, by whose turn it is: a completion keeps the three, and so does a host step while BUSY = 1. -/
theorem operandRegistersChangeOnlyByTheHost : Obligations.OperandRegistersChangeOnlyByTheHost := by
  intro s t h hne
  rcases step_cases_by_turn h with ⟨hn, rfl⟩ | ⟨_, hc⟩ | ⟨hn, _⟩
  · refine .inr ⟨hn, Bool.eq_false_of_not_eq_true fun hb => ?_⟩
    rw [(hostStep_of_busy (s := dropTurn s) hb).1] at hne
    simp at hne
  · rw [completionStep_frame hc] at hne
    simp at hne
  · exact .inl hn

/-- Settles O49, by induction on the turns still to come; after them one completion and one read are enough. -/
theorem pollEnds : Obligations.PollEnds :=
  fun _ _ hi hone hpoll => run_poll _ rfl hi hone hpoll

/-- Settles O1: the four words are the encodings; the decoder's two checks reject the five others. -/
theorem commandWordsDecode : Obligations.CommandWordsDecode :=
  ⟨decodeWord_encode .cfgRate, decodeWord_encode .wave, decodeWord_encode .cfgFsk, decodeWord_encode .encodeBit,
    by decide, by decide, by decide, by decide, by decide⟩

/-- Settles O5: the turn is the block's, given or by default. -/
theorem stepRunsDecodedCommand : Obligations.StepRunsDecodedCommand :=
  fun s _ _ ht hq hi => (step_block (nextTurn_block ht hq)).trans (completionStep_of_ok (s := dropTurn s) hq hi)

/-- Settles O6: the placed turn is the block's, and dropping it leaves the issued command. -/
theorem stepRunsPlacedCommand : Obligations.StepRunsPlacedCommand := by
  intro s v i hi
  rw [State.withFetchWord, tableWord_toNat]
  exact (step_block (nextTurn_of_head rfl)).trans (completionStep_of_ok (s := issue v s) (issue_inflight v s) hi)

/-- Settles O7: the turn is the host's, given or by default. -/
theorem stepPerformsHostAccess : Obligations.StepPerformsHostAccess :=
  fun s _ _ ht hhost =>
    (step_host (nextTurn_host ht)).trans (congrArg Host.Outcome.next (hostStep_access (s := dropTurn s) hhost))

/-- Settles O8: the word read is `statusWord`. -/
theorem pollRepeatsWhileBusy : Obligations.PollRepeatsWhileBusy :=
  fun s _ ht hhost => ⟨statusWord s, getLsbD_statusWord s 0, resultCode_statusWord s,
    (step_host (nextTurn_of_head ht)).trans (congrArg Host.Outcome.next (hostStep_poll (s := dropTurn s) hhost))⟩

/-- Settles O9, field by field of the initial state. -/
theorem resetClearsTheBlock : Obligations.ResetClearsTheBlock := by
  intro s ht
  refine ⟨_, step_reset (nextTurn_of_head ht), ?_⟩
  simp [symSize]

/-- Settles O10, by the turn. -/
theorem secondMasterIsRefused : Obligations.SecondMasterIsRefused :=
  fun _ _ ht => step_foreign (nextTurn_of_head ht)

/-- Settles O11: the block's own step is put at its place in the list. -/
theorem instancesStepAlone : Obligations.InstancesStepAlone := by
  intro k blocks s t hk ht
  obtain ⟨hlt, _⟩ := List.getElem?_eq_some_iff.mp hk
  refine ⟨blocks.set k t, ?_, List.length_set, List.getElem?_set_self hlt, fun j hj => ?_⟩
  · simp only [stepInstance, hk, ht]
  · exact List.getElem?_set_ne hj.symm

/-- Settles O12: the default turn is the host's, and the host is idle. -/
theorem idleStatePersists : Obligations.IdleStatePersists := by
  intro s ht hidle hhost
  have hdrop : dropTurn s = s := by rw [dropTurn, ht, List.tail_nil, ← ht]
  rw [step_host (nextTurn_host (.inr ⟨ht, hidle⟩)), hdrop, hostStep_idle hhost]

/-- Settles O36: an address outside the window reaches no register's rule. -/
theorem noResponseOutsideTheWindow : Obligations.NoResponseOutsideTheWindow := by
  intro s a hout
  have hwindow := inWindow_outside hout
  refine ⟨fun hdir => ?_, fun hdir => ⟨(drawWord s).1, ?_⟩⟩
  · simp [performAccess, hdir, hwindow]
  · simp [performAccess, hdir, hwindow, observe, drawWord]

/-- Settles O46: `Inv.initial`, in every legal configuration and in that of `State.reset`. -/
theorem invAfterReset : Obligations.InvAfterReset :=
  ⟨fun _ hp => Inv.initial hp, Inv.initial (by decide)⟩
end
